-- ==== Sys2Proof/Word.lean ====
section
/-! DEFINITION. The word types of the machine (R4, R7): every stored value is an unsigned integer of a fixed
width, so each of them is a bit vector of that width. -/

namespace Sys2Proof

/-- An 8-bit value: a general register, a timer, a byte of memory (R4, R20, R34). -/
abbrev Byte := BitVec 8

/-- A 16-bit value: `pc`, `sp`, `I`, an address while it is computed (R4, R54). -/
abbrev Addr := BitVec 16

/-- A 16-bit instruction word (R80). -/
abbrev Word := BitVec 16

/-- A 64-bit value: `time`, `watchdog`, `timer_time`, a cost (R4, R5). -/
abbrev Time := BitVec 64

/-- One row of the display, column 0 in bit 63 (R35, R36). -/
abbrev RowWord := BitVec 64

/-- The index of a general register, a 4-bit field of an instruction (R20, R81). -/
abbrev Reg := BitVec 4

/-- The 4-bit immediate `n` of `Dxyn` (R81). -/
abbrev Imm4 := BitVec 4

/-- The 8-bit immediate `kk` (R81). -/
abbrev Imm8 := BitVec 8

/-- The 12-bit address `nnn` (R81). -/
abbrev Addr12 := BitVec 12

end Sys2Proof
end

