-- ==== Sys2Proof/Config.lean ====
section
/-! DEFINITION. What one implementation fixes and the spec leaves open: the parameters of R5 with the reference
configuration of R6, and the free values (R12). -/

namespace Sys2Proof

/-- The parameters the document leaves open, "each is a named argument of the model" (R5). `State` carries one of
these unchanged, so a statement about every state is a statement about every configuration (log 3). -/
structure Config where
  /-- `FONT_BASE`: where the 80 font bytes stand at reset. -/
  fontBase : Addr
  /-- `FONT_DATA`: 16 glyphs of 5 bytes. -/
  fontData : Vector Byte 80
  /-- `SP_RESET`: the stack pointer at reset. -/
  spReset : Addr
  /-- `COST[m]`: one cost for each row of the opcode table, in the table's order. -/
  cost : Vector Time 34
  /-- `COST_FAULT`: the cost of an unrecognised word. -/
  costFault : Time
  /-- `TICK_PERIOD`: units of `time` for each timer tick. -/
  tickPeriod : Time
  /-- `SUB_EQ_FLAG`: `VF` after `8xy5` with equal operands. -/
  subEqFlag : Bool
  /-- `SUBN_EQ_FLAG`: `VF` after `8xy7` with equal operands. -/
  subnEqFlag : Bool
  deriving DecidableEq, Repr, Inhabited

/-- The glyphs of 0 to 3, as the table of R172 prints them. -/
def fontGlyphs0to3 : List Byte :=
  [0xF0, 0x90, 0x90, 0x90, 0xF0] ++ [0x20, 0x60, 0x20, 0x20, 0x70] ++
  [0xF0, 0x10, 0xF0, 0x80, 0xF0] ++ [0xF0, 0x10, 0xF0, 0x10, 0xF0]

/-- The glyphs of 4 to 7 (R172). -/
def fontGlyphs4to7 : List Byte :=
  [0x90, 0x90, 0xF0, 0x10, 0x10] ++ [0xF0, 0x80, 0xF0, 0x10, 0xF0] ++
  [0xF0, 0x80, 0xF0, 0x90, 0xF0] ++ [0xF0, 0x10, 0x20, 0x40, 0x40]

/-- The glyphs of 8 to B (R172). -/
def fontGlyphs8toB : List Byte :=
  [0xF0, 0x90, 0xF0, 0x90, 0xF0] ++ [0xF0, 0x90, 0xF0, 0x10, 0xF0] ++
  [0xF0, 0x90, 0xF0, 0x90, 0x90] ++ [0xE0, 0x90, 0xE0, 0x90, 0xE0]

/-- The glyphs of C to F (R172). -/
def fontGlyphsCtoF : List Byte :=
  [0xF0, 0x80, 0x80, 0x80, 0xF0] ++ [0xE0, 0x90, 0x90, 0x90, 0xE0] ++
  [0xF0, 0x80, 0xF0, 0x80, 0xF0] ++ [0xF0, 0x80, 0xF0, 0x80, 0x80]

/-- The default `FONT_DATA`: the table of R172 (the spec marks its bytes as general knowledge, D3). -/
def defaultFont : Vector Byte 80 :=
  ⟨⟨fontGlyphs0to3 ++ fontGlyphs4to7 ++ fontGlyphs8toB ++ fontGlyphsCtoF⟩, rfl⟩

/-- `REFCFG`, the reference configuration (R6). -/
def Config.reference : Config where
  fontBase := 0x000
  fontData := defaultFont
  spReset := 0x050
  cost := Vector.replicate 34 1
  costFault := 1
  tickPeriod := 8
  subEqFlag := true
  subnEqFlag := false

/-- Free value: the byte of the n-th draw, when it is a `RandomByte()` (R12, R153, R252, D15; log 4). -/
opaque Config.randomByte : Nat → Byte

/-- Free value: the environment's answer of the n-th draw, when it is an `IoIsKeyDown(k)` (R12, R211, R251, D14;
log 4). -/
opaque Config.isKeyDown : Nat → Byte → Bool

/-- Free value: the tick count of an `IoSync(t)` with `t` below `timer_time`. R244 says "t >= timer_time always",
which a `time` that wraps modulo 2^64 can break (R27); the arguments are `t`, `timer_time` and `TICK_PERIOD`
(log 7). -/
opaque Config.ticksAfterWrap : Time → Time → Time → Nat

end Sys2Proof
end

