-- ==== Sys2Proof/Syntax.lean ====
section
/-! DEFINITION. The instructions: one constructor for each row of `spec/opcode_table.json` (R86), in the table's
order. Operand types are exactly as wide as the fields of R81, so no ill-formed operand can be written. -/

namespace Sys2Proof

/-- The 34 instructions of R86. -/
inductive Instr where
  /-- `00E0` CLS (R194) -/
  | cls
  /-- `00EE` RET (R121) -/
  | ret
  /-- `1nnn` JP nnn (R122, R123) -/
  | jp (nnn : Addr12)
  /-- `2nnn` CALL nnn (R124) -/
  | call (nnn : Addr12)
  /-- `3xkk` SE Vx, kk (R125) -/
  | seImm (x : Reg) (kk : Imm8)
  /-- `4xkk` SNE Vx, kk (R126) -/
  | sneImm (x : Reg) (kk : Imm8)
  /-- `5xy0` SE Vx, Vy (R127) -/
  | seReg (x y : Reg)
  /-- `6xkk` LD Vx, kk (R142) -/
  | ldImm (x : Reg) (kk : Imm8)
  /-- `7xkk` ADD Vx, kk (R143) -/
  | addImm (x : Reg) (kk : Imm8)
  /-- `8xy0` LD Vx, Vy (R144) -/
  | ldReg (x y : Reg)
  /-- `8xy1` OR Vx, Vy (R145) -/
  | orReg (x y : Reg)
  /-- `8xy2` AND Vx, Vy (R146) -/
  | andReg (x y : Reg)
  /-- `8xy3` XOR Vx, Vy (R147) -/
  | xorReg (x y : Reg)
  /-- `8xy4` ADD Vx, Vy (R148) -/
  | addReg (x y : Reg)
  /-- `8xy5` SUB Vx, Vy (R149) -/
  | subReg (x y : Reg)
  /-- `8xy6` SHR Vx (R150); `y` is carried and not read (R88) -/
  | shr (x y : Reg)
  /-- `8xy7` SUBN Vx, Vy (R151) -/
  | subn (x y : Reg)
  /-- `8xyE` SHL Vx (R152); `y` is carried and not read (R88) -/
  | shl (x y : Reg)
  /-- `9xy0` SNE Vx, Vy (R128) -/
  | sneReg (x y : Reg)
  /-- `Annn` LD I, nnn (R170) -/
  | ldI (nnn : Addr12)
  /-- `Bnnn` JP V0, nnn (R129) -/
  | jpV0 (nnn : Addr12)
  /-- `Cxkk` RND Vx, kk (R153) -/
  | rnd (x : Reg) (kk : Imm8)
  /-- `Dxyn` DRW Vx, Vy, n (R195) -/
  | drw (x y : Reg) (n : Imm4)
  /-- `Ex9E` SKP Vx (R211) -/
  | skp (x : Reg)
  /-- `ExA1` SKNP Vx (R212) -/
  | sknp (x : Reg)
  /-- `Fx07` LD Vx, DT (R213) -/
  | ldVxDt (x : Reg)
  /-- `Fx0A` LD Vx, K (R214) -/
  | ldVxK (x : Reg)
  /-- `Fx15` LD DT, Vx (R215) -/
  | ldDtVx (x : Reg)
  /-- `Fx18` LD ST, Vx (R216) -/
  | ldStVx (x : Reg)
  /-- `Fx1E` ADD I, Vx (R171) -/
  | addI (x : Reg)
  /-- `Fx29` LD F, Vx (R172) -/
  | ldF (x : Reg)
  /-- `Fx33` LD B, Vx (R173) -/
  | ldB (x : Reg)
  /-- `Fx55` LD [I], Vx (R174) -/
  | storeRegs (x : Reg)
  /-- `Fx65` LD Vx, [I] (R175) -/
  | loadRegs (x : Reg)
  deriving DecidableEq, Repr

/-- The row of `spec/opcode_table.json` (and of R86, the same order) that an instruction stands for. -/
def Instr.row : Instr → Fin 34
  | .cls => 0
  | .ret => 1
  | .jp _ => 2
  | .call _ => 3
  | .seImm _ _ => 4
  | .sneImm _ _ => 5
  | .seReg _ _ => 6
  | .ldImm _ _ => 7
  | .addImm _ _ => 8
  | .ldReg _ _ => 9
  | .orReg _ _ => 10
  | .andReg _ _ => 11
  | .xorReg _ _ => 12
  | .addReg _ _ => 13
  | .subReg _ _ => 14
  | .shr _ _ => 15
  | .subn _ _ => 16
  | .shl _ _ => 17
  | .sneReg _ _ => 18
  | .ldI _ => 19
  | .jpV0 _ => 20
  | .rnd _ _ => 21
  | .drw _ _ _ => 22
  | .skp _ => 23
  | .sknp _ => 24
  | .ldVxDt _ => 25
  | .ldVxK _ => 26
  | .ldDtVx _ => 27
  | .ldStVx _ => 28
  | .addI _ => 29
  | .ldF _ => 30
  | .ldB _ => 31
  | .storeRegs _ => 32
  | .loadRegs _ => 33

end Sys2Proof
end

