-- ==== Sys2Proof/WellFormed.lean ====
section
/-! DEFINITION. What is well formed: a word (a row of the opcode table matches it, R86, R87), a configuration (the
constraints of R5), a ROM image (R62). An `Instr` term needs no check of its own: its operand types have exactly
the widths of the fields of R81. -/

namespace Sys2Proof

/-- One row of the opcode map: a word `w` is the instruction iff `w &&& mask = value` (R86; the spec calls
`value` the match). -/
structure OpcodeRow where
  mnemonic : String
  mask : Word
  value : Word
  deriving DecidableEq, Repr

/-- Rows 0 to 8 of R86. -/
def opcodeRows0to8 : List OpcodeRow := [
  ⟨"CLS", 0xFFFF, 0x00E0⟩,
  ⟨"RET", 0xFFFF, 0x00EE⟩,
  ⟨"JP_nnn", 0xF000, 0x1000⟩,
  ⟨"CALL_nnn", 0xF000, 0x2000⟩,
  ⟨"SE_Vx__kk", 0xF000, 0x3000⟩,
  ⟨"SNE_Vx__kk", 0xF000, 0x4000⟩,
  ⟨"SE_Vx__Vy", 0xF00F, 0x5000⟩,
  ⟨"LD_Vx__kk", 0xF000, 0x6000⟩,
  ⟨"ADD_Vx__kk", 0xF000, 0x7000⟩]

/-- Rows 9 to 17 of R86. -/
def opcodeRows9to17 : List OpcodeRow := [
  ⟨"LD_Vx__Vy", 0xF00F, 0x8000⟩,
  ⟨"OR_Vx__Vy", 0xF00F, 0x8001⟩,
  ⟨"AND_Vx__Vy", 0xF00F, 0x8002⟩,
  ⟨"XOR_Vx__Vy", 0xF00F, 0x8003⟩,
  ⟨"ADD_Vx__Vy", 0xF00F, 0x8004⟩,
  ⟨"SUB_Vx__Vy", 0xF00F, 0x8005⟩,
  ⟨"SHR_Vx", 0xF00F, 0x8006⟩,
  ⟨"SUBN_Vx__Vy", 0xF00F, 0x8007⟩,
  ⟨"SHL_Vx", 0xF00F, 0x800E⟩]

/-- Rows 18 to 25 of R86. -/
def opcodeRows18to25 : List OpcodeRow := [
  ⟨"SNE_Vx__Vy", 0xF00F, 0x9000⟩,
  ⟨"LD_I__nnn", 0xF000, 0xA000⟩,
  ⟨"JP_V0__nnn", 0xF000, 0xB000⟩,
  ⟨"RND_Vx__kk", 0xF000, 0xC000⟩,
  ⟨"DRW_Vx__Vy__n", 0xF000, 0xD000⟩,
  ⟨"SKP_Vx", 0xF0FF, 0xE09E⟩,
  ⟨"SKNP_Vx", 0xF0FF, 0xE0A1⟩,
  ⟨"LD_Vx__DT", 0xF0FF, 0xF007⟩]

/-- Rows 26 to 33 of R86. -/
def opcodeRows26to33 : List OpcodeRow := [
  ⟨"LD_Vx__K", 0xF0FF, 0xF00A⟩,
  ⟨"LD_DT__Vx", 0xF0FF, 0xF015⟩,
  ⟨"LD_ST__Vx", 0xF0FF, 0xF018⟩,
  ⟨"ADD_I__Vx", 0xF0FF, 0xF01E⟩,
  ⟨"LD_F__Vx", 0xF0FF, 0xF029⟩,
  ⟨"LD_B__Vx", 0xF0FF, 0xF033⟩,
  ⟨"LD__I___Vx", 0xF0FF, 0xF055⟩,
  ⟨"LD_Vx___I", 0xF0FF, 0xF065⟩]

/-- The opcode map, the 34 rows of R86. -/
def opcodeTable : List OpcodeRow :=
  opcodeRows0to8 ++ opcodeRows9to17 ++ opcodeRows18to25 ++ opcodeRows26to33

/-- A word is this row's instruction (R86). -/
def OpcodeRow.matches (r : OpcodeRow) (w : Word) : Bool := w &&& r.mask == r.value

/-- The row an instruction stands for. -/
def Instr.opcodeRow (i : Instr) : OpcodeRow := opcodeTable[i.row.val]'(i.row.isLt)

/-- A word that some row of R86 matches; any other word is an unrecognised opcode (R87). -/
def wordRecognised (w : Word) : Bool := opcodeTable.any fun r => r.matches w

/-- The glyphs lie in low memory, below the ROM: `FONT_BASE + 80 <= 0x200` (R5). -/
def Config.fontFits (c : Config) : Bool := decide (c.fontBase.toNat + 80 ≤ 0x200)

/-- `SP_RESET` is even (R5, U9). -/
def Config.stackEven (c : Config) : Bool := c.spReset.getLsbD 0 == false

/-- Every cost is at least 1 (R5, R277). -/
def Config.costsPositive (c : Config) : Bool := c.cost.toList.all fun k => decide (1 ≤ k.toNat)

/-- `COST_FAULT >= 1` (R5). -/
def Config.faultCostPositive (c : Config) : Bool := decide (1 ≤ c.costFault.toNat)

/-- `TICK_PERIOD >= 1` (R5). -/
def Config.tickPositive (c : Config) : Bool := decide (1 ≤ c.tickPeriod.toNat)

/-- The configurations R5 admits. -/
def Config.wellFormed (c : Config) : Bool :=
  c.fontFits && c.stackEven && c.costsPositive && c.faultCostPositive && c.tickPositive

/-- A ROM image that `LoadRom` accepts: at most 4096 - 0x200 = 3584 bytes (R62). -/
def romFits (bytes : List Byte) : Bool := decide (bytes.length ≤ 3584)

end Sys2Proof
end

