-- ==== Sys2Proof/Decode.lean ====
section
/-! DEFINITION. The decoder (R81 to R92), total on any bytes, and after it the encoder written from the same formats
(R82 to R84). -/

namespace Sys2Proof

/-- `type = w[15:12]` (R81). -/
def fieldType (w : Word) : BitVec 4 := w.extractLsb' 12 4

/-- `x = w[11:8]` (R81). -/
def fieldX (w : Word) : Reg := w.extractLsb' 8 4

/-- `y = w[7:4]` (R81). -/
def fieldY (w : Word) : Reg := w.extractLsb' 4 4

/-- `imm4 = w[3:0]` (R81). -/
def fieldImm4 (w : Word) : Imm4 := w.extractLsb' 0 4

/-- `imm8 = w[7:0]` (R81). -/
def fieldImm8 (w : Word) : Imm8 := w.extractLsb' 0 8

/-- `addr12 = w[11:0]` (R81). -/
def fieldAddr12 (w : Word) : Addr12 := w.extractLsb' 0 12

/-- Why bytes are no instruction: the six classes of unrecognised words (R87, labelled as R231 labels them), or fewer
than two bytes. -/
inductive Reject where
  /-- `type = 0x0`, `addr12` not in {0x0E0, 0x0EE}: the unknown-syscall fault -/
  | ef0
  /-- `type = 0x5`, `imm4 != 0` -/
  | ef5
  /-- `type = 0x9`, `imm4 != 0` -/
  | ef9
  /-- `type = 0x8`, `imm4` in {8, 9, 0xA, 0xB, 0xC, 0xD, 0xF} -/
  | ef8
  /-- `type = 0xE`, `imm8` not in {0x9E, 0xA1} -/
  | efE
  /-- `type = 0xF`, `imm8` none of the nine sub-opcodes -/
  | efF
  /-- fewer than two bytes were given (R80: every instruction is exactly 16 bits) -/
  | truncated
  deriving DecidableEq, Repr

/-- Type 0x0: dispatch on `addr12` (R86). -/
def decodeSys (w : Word) : Except Reject Instr :=
  match (fieldAddr12 w).toNat with
  | 0x0E0 => .ok .cls
  | 0x0EE => .ok .ret
  | _ => .error .ef0

/-- Type 0x8: dispatch on `imm4` (R86). -/
def decodeAlu (w : Word) : Except Reject Instr :=
  match (fieldImm4 w).toNat with
  | 0x0 => .ok (.ldReg (fieldX w) (fieldY w))
  | 0x1 => .ok (.orReg (fieldX w) (fieldY w))
  | 0x2 => .ok (.andReg (fieldX w) (fieldY w))
  | 0x3 => .ok (.xorReg (fieldX w) (fieldY w))
  | 0x4 => .ok (.addReg (fieldX w) (fieldY w))
  | 0x5 => .ok (.subReg (fieldX w) (fieldY w))
  | 0x6 => .ok (.shr (fieldX w) (fieldY w))
  | 0x7 => .ok (.subn (fieldX w) (fieldY w))
  | 0xE => .ok (.shl (fieldX w) (fieldY w))
  | _ => .error .ef8

/-- Type 0xE: dispatch on `imm8` (R86). -/
def decodeKey (w : Word) : Except Reject Instr :=
  match (fieldImm8 w).toNat with
  | 0x9E => .ok (.skp (fieldX w))
  | 0xA1 => .ok (.sknp (fieldX w))
  | _ => .error .efE

/-- Type 0xF: dispatch on `imm8` (R86). -/
def decodeMisc (w : Word) : Except Reject Instr :=
  match (fieldImm8 w).toNat with
  | 0x07 => .ok (.ldVxDt (fieldX w))
  | 0x0A => .ok (.ldVxK (fieldX w))
  | 0x15 => .ok (.ldDtVx (fieldX w))
  | 0x18 => .ok (.ldStVx (fieldX w))
  | 0x1E => .ok (.addI (fieldX w))
  | 0x29 => .ok (.ldF (fieldX w))
  | 0x33 => .ok (.ldB (fieldX w))
  | 0x55 => .ok (.storeRegs (fieldX w))
  | 0x65 => .ok (.loadRegs (fieldX w))
  | _ => .error .efF

/-- Decode one word: dispatch on `type`, then on the sub-opcode field (R86, R92, R102). -/
def decodeWord (w : Word) : Except Reject Instr :=
  match (fieldType w).toNat with
  | 0x0 => decodeSys w
  | 0x1 => .ok (.jp (fieldAddr12 w))
  | 0x2 => .ok (.call (fieldAddr12 w))
  | 0x3 => .ok (.seImm (fieldX w) (fieldImm8 w))
  | 0x4 => .ok (.sneImm (fieldX w) (fieldImm8 w))
  | 0x5 => if fieldImm4 w = 0 then .ok (.seReg (fieldX w) (fieldY w)) else .error .ef5
  | 0x6 => .ok (.ldImm (fieldX w) (fieldImm8 w))
  | 0x7 => .ok (.addImm (fieldX w) (fieldImm8 w))
  | 0x8 => decodeAlu w
  | 0x9 => if fieldImm4 w = 0 then .ok (.sneReg (fieldX w) (fieldY w)) else .error .ef9
  | 0xA => .ok (.ldI (fieldAddr12 w))
  | 0xB => .ok (.jpV0 (fieldAddr12 w))
  | 0xC => .ok (.rnd (fieldX w) (fieldImm8 w))
  | 0xD => .ok (.drw (fieldX w) (fieldY w) (fieldImm4 w))
  | 0xE => decodeKey w
  | _ => decodeMisc w

/-- The byte at the lower address is the more significant (R52, R70, R80). -/
def wordOfBytes (hi lo : Byte) : Word := hi ++ lo

/-- `v[15:8]`, the byte that stands at the lower address (R9, R70). -/
def highByte (w : Word) : Byte := w.extractLsb' 8 8

/-- `v[7:0]`, the byte that stands at the higher address (R9, R70). -/
def lowByte (w : Word) : Byte := w.extractLsb' 0 8

/-- Decode the first instruction of a byte sequence; answers the instruction and the bytes after it. -/
def decode : List Byte → Except Reject (Instr × List Byte)
  | hi :: lo :: rest =>
    match decodeWord (wordOfBytes hi lo) with
    | .ok i => .ok (i, rest)
    | .error e => .error e
  | _ => .error .truncated

/-- Format A: `type | addr12` (R82). -/
def formatA (t : BitVec 4) (nnn : Addr12) : Word := t ++ nnn

/-- Format I: `type | x | imm8` (R83). -/
def formatI (t : BitVec 4) (x : Reg) (kk : Imm8) : Word := t ++ x ++ kk

/-- Format R: `type | x | y | imm4` (R84). -/
def formatR (t : BitVec 4) (x y : Reg) (n : Imm4) : Word := t ++ x ++ y ++ n

/-- The word of an instruction (R82 to R84, R86). -/
def encode : Instr → Word
  | .cls => formatA 0x0 0x0E0
  | .ret => formatA 0x0 0x0EE
  | .jp nnn => formatA 0x1 nnn
  | .call nnn => formatA 0x2 nnn
  | .seImm x kk => formatI 0x3 x kk
  | .sneImm x kk => formatI 0x4 x kk
  | .seReg x y => formatR 0x5 x y 0x0
  | .ldImm x kk => formatI 0x6 x kk
  | .addImm x kk => formatI 0x7 x kk
  | .ldReg x y => formatR 0x8 x y 0x0
  | .orReg x y => formatR 0x8 x y 0x1
  | .andReg x y => formatR 0x8 x y 0x2
  | .xorReg x y => formatR 0x8 x y 0x3
  | .addReg x y => formatR 0x8 x y 0x4
  | .subReg x y => formatR 0x8 x y 0x5
  | .shr x y => formatR 0x8 x y 0x6
  | .subn x y => formatR 0x8 x y 0x7
  | .shl x y => formatR 0x8 x y 0xE
  | .sneReg x y => formatR 0x9 x y 0x0
  | .ldI nnn => formatA 0xA nnn
  | .jpV0 nnn => formatA 0xB nnn
  | .rnd x kk => formatI 0xC x kk
  | .drw x y n => formatR 0xD x y n
  | .skp x => formatI 0xE x 0x9E
  | .sknp x => formatI 0xE x 0xA1
  | .ldVxDt x => formatI 0xF x 0x07
  | .ldVxK x => formatI 0xF x 0x0A
  | .ldDtVx x => formatI 0xF x 0x15
  | .ldStVx x => formatI 0xF x 0x18
  | .addI x => formatI 0xF x 0x1E
  | .ldF x => formatI 0xF x 0x29
  | .ldB x => formatI 0xF x 0x33
  | .storeRegs x => formatI 0xF x 0x55
  | .loadRegs x => formatI 0xF x 0x65

/-- The two bytes of an instruction in memory order (R70). -/
def encodeBytes (i : Instr) : List Byte := [highByte (encode i), lowByte (encode i)]

/-- What the decoder reads from the word whose bits are `w`, numbered as the opcode table numbers them. Every row has
16 bits (R80), laid out big-endian and given to `decode`; bits from `nbits` up are 0. -/
def decodeTableWord (nbits w : Nat) : Option Instr :=
  let word : Word := BitVec.ofNat 16 (w % 2 ^ nbits)
  match decode [highByte word, lowByte word] with
  | .ok (i, _) => some i
  | .error _ => none

end Sys2Proof
end

