-- ==== Sys2Proof/Machine/State.lean ====
section
/-! DEFINITION. The state of the block (R20 to R43), the reasons a step can stop, and the state after reset (R42). -/

namespace Sys2Proof.Machine

/-- One entry of the Io call trace: a call the engine made, with its argument and its answer (R11, R40). -/
inductive IoEvent where
  /-- `IoSync(t)` (R244) -/
  | sync (t : Time)
  /-- `IoIsKeyDown(k) -> down` (R211, R212) -/
  | isKeyDown (k : Byte) (down : Bool)
  /-- `IoNextKey() -> k` (R214) -/
  | nextKey (k : Byte)
  /-- `IoSetDelay(v)` (R245) -/
  | setDelay (v : Byte)
  /-- `IoSetSound(v)` (R247) -/
  | setSound (v : Byte)
  /-- `IoGetDelay() -> v` (R246) -/
  | getDelay (v : Byte)
  deriving DecidableEq, Repr

/-- Main memory (R34, R50): the bytes that differ from their reset contents, with their addresses, addresses strictly
rising. `Memory.wf` states the form and `Memory.read` what an unlisted address reads as. -/
abbrev Memory := List Host.Cell

/-- Everything the spec gives the machine, and three fields of the model's own (`keys`, `draws`, `cfg`). -/
structure State where
  /-- the 16 general registers `V0`..`VF` (R20) -/
  v : Vector Byte 16
  /-- the program counter (R23) -/
  pc : Addr
  /-- the stack pointer: the byte address of the next free slot (R26) -/
  sp : Addr
  /-- the index register `I` (R25) -/
  ireg : Addr
  /-- the cycle counter (R27, R242) -/
  time : Time
  /-- the deadline of `Run` (R28) -/
  watchdog : Time
  /-- the count of recoverable faults (R29) -/
  errors : BitVec 32
  /-- the halted flag (R30) -/
  paused : Bool
  /-- set by a `MemoryFault` (R31, R234) -/
  faulted : Bool
  /-- `DT`, the delay timer (R32) -/
  dt : Byte
  /-- `ST`, the sound timer (R33) -/
  st : Byte
  /-- `timer_time`, the argument of the last `IoSync` (R38) -/
  timerTime : Time
  /-- main memory (R34) -/
  mem : Memory
  /-- the display rows, row 0 at the top (R35) -/
  disp : Vector RowWord 32
  /-- the Io call trace, oldest first (R40) -/
  trace : List IoEvent
  /-- the key wait of R39: `some x` while an `Fx0A` that has been fetched and has made its `IoSync` waits in
  `IoNextKey()` (log 6) -/
  keyWait : Option Reg
  /-- the model's own: the environment's answers to `IoNextKey` not taken yet, oldest first; none means that the
  environment has given no answer (R12, log 5) -/
  keys : List Byte
  /-- the model's own: how many free values have been drawn (R12, log 4) -/
  draws : Nat
  /-- the model's own: the parameters of R5; no operation writes them (log 3) -/
  cfg : Config
  deriving DecidableEq, Repr, Inhabited

/-- Why the machine stops with a fault. -/
inductive Fault where
  /-- An access at an address of 4096 or above (R55, R233), raised by the fetch, `00EE`, `2nnn`, `Dxyn`, `Fx33`, `Fx55`
  and `Fx65`. Terminal (R234); the address is a label only (R236). Safe: the spec gives the state after it no
  meaning. -/
  | memoryFault (a : Addr)
  deriving DecidableEq, Repr

/-- Why a step has no meaning. -/
inductive Refusal where
  /-- An instruction without a meaning, by its mnemonic; raised by `exec`'s refused arms only. Safe. -/
  | notModelled (mnemonic : String)
  /-- `step` on an engine whose `faulted` bit is set: "no step exists" until reset (R14, R100, R105). Safe. -/
  | engineFaulted
  deriving DecidableEq, Repr

/-- The reset table of R42 for the configuration `c`. -/
def State.resetWith (c : Config) : State where
  v := Vector.replicate 16 0
  pc := 0x0200
  sp := c.spReset
  ireg := 0
  time := 0
  watchdog := 0
  errors := 0
  paused := false
  faulted := false
  dt := 0
  st := 0
  timerTime := 0
  mem := []
  disp := Vector.replicate 32 0
  trace := []
  keyWait := none
  keys := []
  draws := 0
  cfg := c

/-- The machine right after reset (R42, R260) in the reference configuration (R6). -/
def State.reset : State := State.resetWith Config.reference

end Sys2Proof.Machine
end

