-- ==== Sys2Proof/Machine/Ops.lean ====
section
/-! DEFINITION. The named operations every meaning is made of: registers, memory (R50 to R55), the stack, fetch and
advance (R101), the `EmulationFault` (R232), the display unit (R190 to R192), the timer unit and the Io calls (R11,
R244 to R248), and the accrual of cost (R103). -/

namespace Sys2Proof.Machine

/-- What a step or a meaning answers. -/
abbrev Result := Host.Outcome State Fault Refusal

/-! ### General registers -/

/-- `V[x]` (R20). -/
def State.reg (s : State) (x : Reg) : Byte := s.v[x.toNat]'(x.isLt)

/-- `V[x] <- b` (R8). -/
def State.setReg (s : State) (x : Reg) (b : Byte) : State := { s with v := s.v.set x.toNat b x.isLt }

/-- The index of `VF` (R8, R21). -/
def vF : Reg := 0xF

/-- `V[x], V[x+1], ...` of a register file set to the bytes given, the index counting modulo 16; the only caller
(`Fx65`) starts at 0 with at most 16 bytes. -/
def setRegsFrom (x : Reg) : List Byte → State → State
  | [], s => s
  | b :: bs, s => setRegsFrom (x + 1) bs (s.setReg x b)

/-- `V[0] .. V[n-1]`, ascending. -/
def State.firstRegs (s : State) (n : Nat) : List Byte := s.v.toList.take n

/-! ### Main memory -/

/-- What an unlisted address reads as: the reset contents, `FONT_DATA` at `FONT_BASE` and 0x00 elsewhere (R42, R264;
log 2). -/
def resetByte (c : Config) (a : Nat) : Byte :=
  if h : c.fontBase.toNat ≤ a ∧ a < c.fontBase.toNat + 80 then
    c.fontData[a - c.fontBase.toNat]'(by omega)
  else 0

/-- The byte at address `a`. -/
def Memory.read (c : Config) : Memory → Nat → Byte
  | [], a => resetByte c a
  | (k, b) :: m, a => if a = k then b else Memory.read c m a

/-- Memory with the byte at `a` set to `b`, in canonical form. -/
def Memory.write (c : Config) : Memory → Nat → Byte → Memory
  | [], a, b => if b = resetByte c a then [] else [(a, b)]
  | (k, e) :: m, a, b =>
    if a < k then
      if b = resetByte c a then (k, e) :: m else (a, b) :: (k, e) :: m
    else if a = k then
      if b = resetByte c a then m else (a, b) :: m
    else (k, e) :: Memory.write c m a b

/-- The canonical form from address `lo` up: addresses strictly rising and below 4096, no entry equal to what its
address reads as when unlisted. -/
def Memory.wfFrom (c : Config) : Nat → Memory → Bool
  | _, [] => true
  | lo, (k, b) :: m =>
    decide (lo ≤ k) && decide (k < 4096) && decide (b ≠ resetByte c k) && Memory.wfFrom c (k + 1) m

/-- The canonical form of a memory. -/
def Memory.wf (c : Config) (m : Memory) : Bool := Memory.wfFrom c 0 m

/-- A memory in canonical form holding the given cells, later cells winning; cells at 4096 or above are dropped. -/
def Memory.ofCells (c : Config) (cells : List Host.Cell) : Memory :=
  cells.foldl (fun m k => if k.1 < 4096 then Memory.write c m k.1 k.2 else m) []

/-- The byte at address `a` of the state's memory, whatever the address. -/
def State.byteAt (s : State) (a : Nat) : Byte := Memory.read s.cfg s.mem a

/-- `mem[a] <- b`, the address already checked. -/
def State.setByte (s : State) (a : Nat) (b : Byte) : State := { s with mem := Memory.write s.cfg s.mem a b }

/-- `MemRead(a, 1)` (R51); an error carries the address of the `MemoryFault`. -/
def memRead8 (s : State) (a : Addr) : Except Addr Byte :=
  if a.toNat < 4096 then .ok (s.byteAt a.toNat) else .error a

/-- `MemRead(a, 2)` (R52): big-endian, both addresses checked, the lower first. -/
def memRead16 (s : State) (a : Addr) : Except Addr Word :=
  if a.toNat < 4096 then
    if (a + 1).toNat < 4096 then .ok (wordOfBytes (s.byteAt a.toNat) (s.byteAt (a + 1).toNat))
    else .error (a + 1)
  else .error a

/-- `MemWrite(a, 1, v)` (R53). -/
def memWrite8 (s : State) (a : Addr) (b : Byte) : Except Addr State :=
  if a.toNat < 4096 then .ok (s.setByte a.toNat b) else .error a

/-- `MemWrite(a, 2, v)` (R53): both addresses are checked before anything is written. -/
def memWrite16 (s : State) (a : Addr) (w : Word) : Except Addr State :=
  if a.toNat < 4096 then
    if (a + 1).toNat < 4096 then
      .ok ((s.setByte a.toNat (highByte w)).setByte (a + 1).toNat (lowByte w))
    else .error (a + 1)
  else .error a

/-- The bytes given, stored at `a`, `a + 1`, ... (each address modulo 2^16, R54), ascending, up to the first address
that faults (R64, R173, R174). -/
def storeBytes : List Byte → Addr → State → Except Addr State
  | [], _, s => .ok s
  | b :: bs, a, s =>
    match memWrite8 s a b with
    | .ok t => storeBytes bs (a + 1) t
    | .error e => .error e

/-- The `n` bytes at `a`, `a + 1`, ... (each address modulo 2^16, R54), ascending, up to the first address that faults
(R64, R175, R195). -/
def loadBytes (s : State) : Nat → Addr → Except Addr (List Byte)
  | 0, _ => .ok []
  | n + 1, a =>
    match memRead8 s a with
    | .ok b =>
      match loadBytes s n (a + 1) with
      | .ok bs => .ok (b :: bs)
      | .error e => .error e
    | .error e => .error e

/-- `raise MemoryFault(a)` (R10, R234): the step ends with the fault outcome; otherwise it goes on to the state. -/
def orMemoryFault : Except Addr State → Result
  | .ok t => .next t
  | .error a => .fault (.memoryFault a)

/-! ### The stack in main memory -/

/-- Push (R26, R124): store the word at `sp`, then advance `sp` by 2. -/
def pushWord (w : Word) (s : State) : Except Addr State :=
  match memWrite16 s s.sp w with
  | .ok t => .ok { t with sp := s.sp + 2 }
  | .error e => .error e

/-- Pop into `pc` (R26, R121): `sp` goes back by 2, then the word at the new `sp` is read. -/
def popToPc (s : State) : Except Addr State :=
  match memRead16 s (s.sp - 2) with
  | .ok w => .ok { s with sp := s.sp - 2, pc := w }
  | .error e => .error e

/-! ### Fetch, advance, faults, cost -/

/-- The fetch (R100, R101): `MemRead(pc, 2)`. -/
def fetch (s : State) : Except Addr Word := memRead16 s s.pc

/-- `pc <- (pc + 2) mod 2^16`: the advance after the fetch (R101), and a taken skip (R120). -/
def State.advancePc (s : State) : State := { s with pc := s.pc + 2 }

/-- A skip that is taken when `cond` holds (R120). -/
def skipIf (cond : Bool) (s : State) : State := if cond then s.advancePc else s

/-- `raise EmulationFault` (R10, R232): the one exception that goes on. Nothing but `errors` changes here; the cost
`COST_FAULT` is added by the step (R103), `pc` has already advanced, and there is no handler to go to and nothing to
return from (R239, R240). -/
def takeEmulationFault (s : State) : State := { s with errors := s.errors + 1 }

/-- `time <- (time + c) mod 2^64`, once, at the end of a step (R103). A step whose `Fx0A` still waits has not ended, so
nothing is added yet (R214). -/
def accrue (c : Time) (s : State) : State :=
  match s.keyWait with
  | none => { s with time := s.time + c }
  | some _ => s

/-- The cost accrued on an outcome; a step that ends in `MemoryFault` adds nothing (R103). -/
def accrueOutcome (c : Time) : Result → Result
  | .next t => .next (accrue c t)
  | .fault f => .fault f
  | .refused r => .refused r

/-! ### The display unit -/

/-- `Clear()` (R190). -/
def clearDisplay (s : State) : State := { s with disp := Vector.replicate 32 0 }

/-- The blit mask of R191: bit 7 of `b` at column `x`, the bits past column 63 dropped. -/
def blitMask (x : Nat) (b : Byte) : RowWord :=
  if x ≤ 56 then b.setWidth 64 <<< (56 - x) else b.setWidth 64 >>> (x - 56)

/-- `Blit(x, y, b)` (R192): XOR into row `y`, and whether a lit pixel was cleared. Rows from 32 up do not exist; no
caller names one (R193). -/
def blit (x y : Nat) (b : Byte) (d : Vector RowWord 32) : Vector RowWord 32 × Bool :=
  if h : y < 32 then (d.set y (d[y] ^^^ blitMask x b), (d[y] &&& blitMask x b) != 0) else (d, false)

/-- The bytes given, blitted at column `x` into rows `y`, `y + 1`, ..., with the OR of the collisions (R195). -/
def blitRows (x : Nat) : Nat → List Byte → Vector RowWord 32 → Vector RowWord 32 × Bool
  | _, [], d => (d, false)
  | y, b :: bs, d =>
    let (d1, c1) := blit x y b d
    let (d2, c2) := blitRows x (y + 1) bs d1
    (d2, c1 || c2)

/-- The pixel at column `c` of row `r` is lit: bit `63 - c` of the row (R36). -/
def pixelLit (d : Vector RowWord 32) (c : Nat) (r : Fin 32) : Bool := d[r].getLsbD (63 - c)

/-! ### The Io calls and the timer unit -/

/-- Append an event to the Io call trace (R40). -/
def State.traceEvent (s : State) (e : IoEvent) : State := { s with trace := s.trace ++ [e] }

/-- The number `n` of tick boundaries between the last sync and cycle time `t` (R244). For `t` below `timer_time`,
which R244 says never happens, it is a free value (log 7). -/
def ticksSince (c : Config) (timerTime t : Time) : Nat :=
  if timerTime ≤ t then t.toNat / c.tickPeriod.toNat - timerTime.toNat / c.tickPeriod.toNat
  else Config.ticksAfterWrap t timerTime c.tickPeriod

/-- `b - min(b, n)`: a down-counter that stops at 0 (R244). -/
def countDown (b : Byte) (n : Nat) : Byte := BitVec.ofNat 8 (b.toNat - min b.toNat n)

/-- `IoSync(t)` (R244). -/
def ioSync (t : Time) (s : State) : State :=
  let n := ticksSince s.cfg s.timerTime t
  { s with
    dt := countDown s.dt n
    st := countDown s.st n
    timerTime := t
    trace := s.trace ++ [.sync t] }

/-- `IoSetDelay(v)` (R245). -/
def ioSetDelay (v : Byte) (s : State) : State := { s with dt := v, trace := s.trace ++ [.setDelay v] }

/-- `IoSetSound(v)` (R247). -/
def ioSetSound (v : Byte) (s : State) : State := { s with st := v, trace := s.trace ++ [.setSound v] }

/-- `IoGetDelay()` (R246): the trace entry; the value is `s.dt`. -/
def ioGetDelay (s : State) : State := s.traceEvent (.getDelay s.dt)

/-- The answer of this state's next `IoIsKeyDown(k)` draw (R12, R251; log 4). -/
def State.keyDownDraw (s : State) (k : Byte) : Bool := Config.isKeyDown s.draws k

/-- The byte of this state's next `RandomByte()` draw (R12, R252; log 4). -/
def State.randomDraw (s : State) : Byte := Config.randomByte s.draws

/-- `IoIsKeyDown(k)` (R11, R12): one draw used, one trace entry; the answer is `s.keyDownDraw k`. -/
def ioIsKeyDown (k : Byte) (s : State) : State :=
  { s with draws := s.draws + 1, trace := s.trace ++ [.isKeyDown k (s.keyDownDraw k)] }

/-- `RandomByte()` (R12, R252): one draw used, no Io call, no trace entry; the byte is `s.randomDraw`. -/
def drawRandom (s : State) : State := { s with draws := s.draws + 1 }

/-- `V[x] <- IoNextKey()` (R214). With an answer of the environment it is taken, written as it is and the wait is over;
without one the engine waits (R39): nothing changes but that `keyWait` holds `x` (log 5, log 6). -/
def awaitKey (x : Reg) (s : State) : State :=
  match s.keys with
  | k :: rest => ({ s with keys := rest, keyWait := none, trace := s.trace ++ [.nextKey k] } : State).setReg x k
  | [] => { s with keyWait := some x }

/-- The output level `sound_on` (R248). -/
def soundOn (s : State) : Bool := s.st != 0

end Sys2Proof.Machine
end

