-- ==== Sys2Proof/Machine/Operands.lean ====
section
/-! DEFINITION. The operand forms (R85, R176): zero extension of immediates, the one addressing mode, glyph addresses,
BCD digits, sprite coordinates, and the cost of an instruction (R5, R103). -/

namespace Sys2Proof.Machine

/-- `zext_16(addr12)` (R85). -/
def zextAddr (nnn : Addr12) : Addr := nnn.setWidth 16

/-- A register's 8-bit value where it meets a 16-bit one (R85). -/
def zextByte (b : Byte) : Addr := b.setWidth 16

/-- `ea(k) = (I + k) mod 2^16` (R176). -/
def State.elementAddr (s : State) (k : Nat) : Addr := s.ireg + BitVec.ofNat 16 k

/-- `digit(d) = FONT_BASE + 5 * d` for the low nibble `d` of a byte (R61, R172). -/
def glyphAddr (c : Config) (b : Byte) : Addr := c.fontBase + 5 * (b.extractLsb' 0 4).setWidth 16

/-- Hundreds, tens and ones of a byte (R173). -/
def bcdDigits (b : Byte) : List Byte :=
  [BitVec.ofNat 8 (b.toNat / 100), BitVec.ofNat 8 (b.toNat / 10 % 10), BitVec.ofNat 8 (b.toNat % 10)]

/-- The number of registers `Fx55` and `Fx65` move: `x + 1` (R174, R175). -/
def regCount (x : Reg) : Nat := x.toNat + 1

/-- `x0 = V[x] & 63`, the column a sprite starts at (R195). -/
def drawColumn (b : Byte) : Nat := (b &&& 63).toNat

/-- `y0 = V[y] & 31`, the row a sprite starts at (R195). -/
def drawRow (b : Byte) : Nat := (b &&& 31).toNat

/-- How many of the `n` rows of a sprite that starts at row `y0` are drawn: the loop of R195 stops before the first
row past 31, and the test comes before the memory read (R196 c). -/
def rowsDrawn (n : Imm4) (y0 : Nat) : Nat := min n.toNat (32 - y0)

/-- `COST[m]` of an instruction's row (R5, R103). -/
def costOf (c : Config) (i : Instr) : Time := c.cost[i.row.val]'(i.row.isLt)

end Sys2Proof.Machine
end

