-- ==== Sys2Proof/Machine/Flags.lean ====
section
/-! DEFINITION. The flag computations (R24, R140, R141): carry, not-borrow, the bit shifted out, and writing a result
and then its flag. -/

namespace Sys2Proof.Machine

/-- A flag write stores exactly 0x00 or 0x01 (R21). -/
def flagByte (b : Bool) : Byte := if b then 1 else 0

/-- Carry of `a + b`: the 9-bit sum is above 255 (R140, R148). -/
def carryOut (a b : Byte) : Bool := decide (255 < a.toNat + b.toNat)

/-- Not-borrow of `a - b`, with the parameter's value for equal operands (R149, R151). -/
def notBorrow (eqFlag : Bool) (a b : Byte) : Bool :=
  if a = b then eqFlag else decide (b.toNat < a.toNat)

/-- The bit a right shift by one loses (R150). -/
def shiftOutRight (a : Byte) : Bool := a.getLsbD 0

/-- The bit a left shift by one loses (R152). -/
def shiftOutLeft (a : Byte) : Bool := a.getLsbD 7

/-- Write the result to `V[x]`, then the flag to `VF` (R141): with `x = 15` the flag stays. -/
def setRegFlag (x : Reg) (b : Byte) (flag : Bool) (s : State) : State := (s.setReg x b).setReg vF (flagByte flag)

end Sys2Proof.Machine
end

