-- ==== Sys2Proof/Machine/Cycle.lean ====
section
/-! DEFINITION. What the step adds around an instruction (R100 to R103, R214, R232), and placing a word where it
fetches. -/

namespace Sys2Proof.Machine

/-- A key wait goes on (R39, R214): with an answer of the environment `V[x]` is written and the cost `COST[LD Vx, K]` is
added, once; without one nothing changes. -/
def resumeKeyWait (x : Reg) (s : State) : State := accrue (costOf s.cfg (.ldVxK x)) (awaitKey x s)

/-- An unrecognised word, `pc` already past it (R232): `errors + 1`, `time + COST_FAULT`, nothing else. -/
def unrecognisedWord (s : State) : State := accrue s.cfg.costFault (takeEmulationFault s)

/-- The word stored at `pc`, with the engine not faulted and no key wait going on. -/
def placeFetchWord (w : Word) (s : State) : State :=
  let t : State := { s with faulted := false, keyWait := none }
  match memWrite16 t t.pc w with
  | .ok u => u
  | .error _ => t

end Sys2Proof.Machine
end

