-- ==== Sys2Proof/Machine/Alu.lean ====
section
/-! DEFINITION. Register load, arithmetic, logic, shift and random (R140 to R153). -/

namespace Sys2Proof.Machine

/-- `6xkk` LD Vx, kk (R142). -/
def execLdImm (x : Reg) (kk : Imm8) (s : State) : Result := .next (s.setReg x kk)

/-- `7xkk` ADD Vx, kk (R143): no flag. -/
def execAddImm (x : Reg) (kk : Imm8) (s : State) : Result := .next (s.setReg x (s.reg x + kk))

/-- `8xy0` LD Vx, Vy (R144). -/
def execLdReg (x y : Reg) (s : State) : Result := .next (s.setReg x (s.reg y))

/-- `8xy1` OR Vx, Vy (R145): no flag. -/
def execOrReg (x y : Reg) (s : State) : Result := .next (s.setReg x (s.reg x ||| s.reg y))

/-- `8xy2` AND Vx, Vy (R146): no flag. -/
def execAndReg (x y : Reg) (s : State) : Result := .next (s.setReg x (s.reg x &&& s.reg y))

/-- `8xy3` XOR Vx, Vy (R147): no flag. -/
def execXorReg (x y : Reg) (s : State) : Result := .next (s.setReg x (s.reg x ^^^ s.reg y))

/-- `8xy4` ADD Vx, Vy (R148). -/
def execAddReg (x y : Reg) (s : State) : Result :=
  .next (setRegFlag x (s.reg x + s.reg y) (carryOut (s.reg x) (s.reg y)) s)

/-- `8xy5` SUB Vx, Vy (R149). -/
def execSubReg (x y : Reg) (s : State) : Result :=
  .next (setRegFlag x (s.reg x - s.reg y) (notBorrow s.cfg.subEqFlag (s.reg x) (s.reg y)) s)

/-- `8xy6` SHR Vx (R150): `y` is not read. -/
def execShr (x _y : Reg) (s : State) : Result :=
  .next (setRegFlag x (s.reg x >>> 1) (shiftOutRight (s.reg x)) s)

/-- `8xy7` SUBN Vx, Vy (R151). -/
def execSubn (x y : Reg) (s : State) : Result :=
  .next (setRegFlag x (s.reg y - s.reg x) (notBorrow s.cfg.subnEqFlag (s.reg y) (s.reg x)) s)

/-- `8xyE` SHL Vx (R152): `y` is not read. -/
def execShl (x _y : Reg) (s : State) : Result :=
  .next (setRegFlag x (s.reg x <<< 1) (shiftOutLeft (s.reg x)) s)

/-- `Cxkk` RND Vx, kk (R153): one `RandomByte()` draw, masked. -/
def execRnd (x : Reg) (kk : Imm8) (s : State) : Result :=
  .next ((drawRandom s).setReg x (s.randomDraw &&& kk))

end Sys2Proof.Machine
end

