-- ==== Sys2Proof/Machine/Display.lean ====
section
/-! DEFINITION. The display instructions (R194 to R196). -/

namespace Sys2Proof.Machine

/-- `00E0` CLS (R194). -/
def execCls (s : State) : Result := .next (clearDisplay s)

/-- The sprite bytes blitted at the coordinates of `V[x]`, `V[y]` (read before anything is written), then the
collision flag written to `VF` (R195, R196 d). -/
def drawSprite (x y : Reg) (bytes : List Byte) (s : State) : State :=
  let r := blitRows (drawColumn (s.reg x)) (drawRow (s.reg y)) bytes s.disp
  ({ s with disp := r.1 } : State).setReg vF (flagByte r.2)

/-- `Dxyn` DRW Vx, Vy, n (R195): the bytes of the rows that are drawn are read, ascending, then blitted. Reading
them before the first blit answers what the interleaved loop of R195 answers: no read depends on the display, and a
read that faults ends the step either way. -/
def execDrw (x y : Reg) (n : Imm4) (s : State) : Result :=
  match loadBytes s (rowsDrawn n (drawRow (s.reg y))) s.ireg with
  | .ok bytes => .next (drawSprite x y bytes s)
  | .error a => .fault (.memoryFault a)

end Sys2Proof.Machine
end

