-- ==== Sys2Proof/Machine/Flow.lean ====
section
/-! DEFINITION. The control transfer instructions (R120 to R130). Every meaning starts from the state whose `pc` has
already advanced past the instruction (R101). -/

namespace Sys2Proof.Machine

/-- `00EE` RET (R121). -/
def execRet (s : State) : Result := orMemoryFault (popToPc s)

/-- The self-jump test of R123: the target is the address the jump was fetched from. -/
def isSelfJump (nnn : Addr12) (s : State) : Bool := zextAddr nnn == s.pc - 2

/-- `1nnn` JP nnn (R122), with the self-jump pause (R123). -/
def execJp (nnn : Addr12) (s : State) : Result :=
  .next { s with paused := s.paused || isSelfJump nnn s, pc := zextAddr nnn }

/-- `2nnn` CALL nnn (R124): push the advanced `pc`, then jump. -/
def execCall (nnn : Addr12) (s : State) : Result :=
  match pushWord s.pc s with
  | .ok t => .next { t with pc := zextAddr nnn }
  | .error a => .fault (.memoryFault a)

/-- `3xkk` SE Vx, kk (R125). -/
def execSeImm (x : Reg) (kk : Imm8) (s : State) : Result := .next (skipIf (s.reg x == kk) s)

/-- `4xkk` SNE Vx, kk (R126). -/
def execSneImm (x : Reg) (kk : Imm8) (s : State) : Result := .next (skipIf (s.reg x != kk) s)

/-- `5xy0` SE Vx, Vy (R127). -/
def execSeReg (x y : Reg) (s : State) : Result := .next (skipIf (s.reg x == s.reg y) s)

/-- `9xy0` SNE Vx, Vy (R128). -/
def execSneReg (x y : Reg) (s : State) : Result := .next (skipIf (s.reg x != s.reg y) s)

/-- `Bnnn` JP V0, nnn (R129): no self-jump test, no reduction to 12 bits. -/
def execJpV0 (nnn : Addr12) (s : State) : Result :=
  .next { s with pc := zextByte (s.reg 0) + zextAddr nnn }

end Sys2Proof.Machine
end

