-- ==== Sys2Proof/Machine/IndexMemory.lean ====
section
/-! DEFINITION. The index register and memory instructions (R170 to R176). None of the memory instructions changes
`I` (R176). -/

namespace Sys2Proof.Machine

/-- `Annn` LD I, nnn (R170). -/
def execLdI (nnn : Addr12) (s : State) : Result := .next { s with ireg := zextAddr nnn }

/-- `Fx1E` ADD I, Vx (R171): wraps at 16 bits, no flag, no Io call. -/
def execAddI (x : Reg) (s : State) : Result := .next { s with ireg := s.ireg + zextByte (s.reg x) }

/-- `Fx29` LD F, Vx (R172): the low nibble of `Vx` selects the glyph. -/
def execLdF (x : Reg) (s : State) : Result := .next { s with ireg := glyphAddr s.cfg (s.reg x) }

/-- `Fx33` LD B, Vx (R173). -/
def execLdB (x : Reg) (s : State) : Result := orMemoryFault (storeBytes (bcdDigits (s.reg x)) s.ireg s)

/-- `Fx55` LD [I], Vx (R174). -/
def execStoreRegs (x : Reg) (s : State) : Result :=
  orMemoryFault (storeBytes (s.firstRegs (regCount x)) s.ireg s)

/-- `Fx65` LD Vx, [I] (R175). -/
def execLoadRegs (x : Reg) (s : State) : Result :=
  match loadBytes s (regCount x) s.ireg with
  | .ok bs => .next (setRegsFrom 0 bs s)
  | .error a => .fault (.memoryFault a)

end Sys2Proof.Machine
end

