-- ==== Sys2Proof/Machine/KeypadTimer.lean ====
section
/-! DEFINITION. The keypad and timer instructions (R210 to R216): each makes one `IoSync(time)` and then one other Io
call. `time` is the value before this step's cost (R103). -/

namespace Sys2Proof.Machine

/-- `Ex9E` SKP Vx (R211). -/
def execSkp (x : Reg) (s : State) : Result :=
  let t := ioSync s.time s
  .next (skipIf (t.keyDownDraw (t.reg x)) (ioIsKeyDown (t.reg x) t))

/-- `ExA1` SKNP Vx (R212). -/
def execSknp (x : Reg) (s : State) : Result :=
  let t := ioSync s.time s
  .next (skipIf (!t.keyDownDraw (t.reg x)) (ioIsKeyDown (t.reg x) t))

/-- `Fx07` LD Vx, DT (R213): the timer after this instruction's own sync. -/
def execLdVxDt (x : Reg) (s : State) : Result :=
  let t := ioSync s.time s
  .next ((ioGetDelay t).setReg x t.dt)

/-- `Fx0A` LD Vx, K (R214). -/
def execLdVxK (x : Reg) (s : State) : Result := .next (awaitKey x (ioSync s.time s))

/-- `Fx15` LD DT, Vx (R215). -/
def execLdDtVx (x : Reg) (s : State) : Result :=
  let t := ioSync s.time s
  .next (ioSetDelay (t.reg x) t)

/-- `Fx18` LD ST, Vx (R216). -/
def execLdStVx (x : Reg) (s : State) : Result :=
  let t := ioSync s.time s
  .next (ioSetSound (t.reg x) t)

end Sys2Proof.Machine
end

