-- ==== Sys2Proof/Machine/Step.lean ====
section
/-! DEFINITION. One step of the engine (R100, R101, R105), and the state with a chosen word where the next step fetches. -/

namespace Sys2Proof.Machine

/-- One `Step` of the engine (R100). On a faulted engine no step exists (R105). While an `Fx0A` waits, the step goes on
with that wait and nothing else (R39, R214); otherwise the word at `pc` is fetched, `pc` advances, and the instruction
is executed, or an unrecognised word raises `EmulationFault`. -/
def step (s : State) : Host.Outcome State Fault Refusal :=
  if s.faulted then .refused .engineFaulted
  else
    match s.keyWait with
    | some x => .next (resumeKeyWait x s)
    | none =>
      match fetch s with
      | .error a => .fault (.memoryFault a)
      | .ok w =>
        match decodeWord w with
        | .ok i => accrueOutcome (costOf s.cfg i) (exec i s.advancePc)
        | .error _ => .next (unrecognisedWord s.advancePc)

/-- `s` with a 16-bit instruction word stored, big-endian, where `step` fetches next, and the two conditions of a fetch
met: the engine is not faulted and no key wait is going on. A `pc` from which nothing can be fetched (0x0FFF and
above, R101) gets no byte. -/
def State.withFetchWord (s : State) (nbits w : Nat) : State := placeFetchWord (BitVec.ofNat 16 (w % 2 ^ nbits)) s

end Sys2Proof.Machine
end

