-- ==== Sys2Proof/Machine/Commands.lean ====
section
/-! DEFINITION. The host's commands (R109): `Reset`, `LoadRom`, `Step`, `Run(limit)`, the snapshots, and a key supplied by
the environment. Commands are serialised (R13, R58, R110): none of them, a snapshot read included, is accepted while a
key wait keeps another one from ending (R214, R273; U18 of `93_implementation_defined.md`). -/

namespace Sys2Proof.Machine

/-- How a command stands. -/
inductive CommandResult where
  /-- the command is over, with this state -/
  | done (s : State)
  /-- the command has not ended: an `Fx0A` waits for a key (R214, R256 b) -/
  | blocked (s : State)
  /-- a `Run` that has not ended within the number of steps looked at -/
  | unfinished (s : State)
  /-- the command is not accepted: the ROM is too long (R62), or another command is in progress (R110) -/
  | refused
  deriving DecidableEq, Repr

/-- A command is in progress: the key wait of an `Fx0A` keeps the `Step` or `Run` that executes it from ending (R110,
R214). Every command asks this first. -/
def commandInProgress (s : State) : Bool := s.keyWait.isSome

/-- Free value: where the effects stand that a faulting instruction may or may not have had (R234, U20; log 8). Only
the fields that `latchMemoryFault` takes from it count. -/
opaque stateAfterMemoryFault : State → State

/-- `faulted <- 1` after a `MemoryFault` of an instruction (R234): `time` and `errors` stay, and so does everything that no
instruction writes before an access that can fault; `pc`, `sp`, the registers, memory and the display are free. -/
def latchMemoryFault (s : State) : State :=
  let u := stateAfterMemoryFault s
  { s with
    faulted := true
    pc := u.pc
    sp := u.sp
    v := u.v
    mem := Memory.ofCells s.cfg u.mem
    disp := u.disp }

/-- `faulted <- 1` after a `MemoryFault`; one on the fetch itself has no other effect (R101, R234). -/
def afterMemoryFault (s : State) : State :=
  match s.keyWait, fetch s with
  | none, .error _ => { s with faulted := true }
  | _, _ => latchMemoryFault s

/-- One step of the engine within a command; also how a `Step` that was blocked goes on once the environment has supplied
a key. -/
def engineStep (s : State) : CommandResult :=
  match step s with
  | .next t => if t.keyWait.isSome then .blocked t else .done t
  | .fault _ => .done (afterMemoryFault s)
  | .refused _ => .done s

/-- The command `Step` (R105, R109): one step, not gated by `paused`; on a faulted engine nothing. -/
def stepCommand (s : State) : CommandResult := if commandInProgress s then .refused else engineStep s

/-- The loop test of R106. -/
def runGoesOn (s : State) : Bool := !s.paused && decide (s.time < s.watchdog) && !s.faulted

/-- The final `IoSync(time)` of a run, not made on a faulted engine (R106). -/
def finishRun (s : State) : State := if s.faulted then s else ioSync s.time s

/-- The loop of R106, at most as many steps of it as the first argument says; also how a run that was blocked goes on
once the environment has supplied a key. -/
def runLoop : Nat → State → CommandResult
  | 0, s => if runGoesOn s then .unfinished s else .done (finishRun s)
  | n + 1, s =>
    if runGoesOn s then
      match engineStep s with
      | .done t => runLoop n t
      | r => r
    else .done (finishRun s)

/-- The command `Run(limit)` (R106), looked at for at most `steps` steps. -/
def runCommand (steps : Nat) (limit : Time) (s : State) : CommandResult :=
  if commandInProgress s then .refused else runLoop steps { s with watchdog := s.time + limit }

/-- `bytes` written at `a`, `a + 1`, ... of memory, every address below 4096. -/
def writeRom : Nat → List Byte → State → State
  | _, [], s => s
  | a, b :: bs, s => writeRom (a + 1) bs (s.setByte a b)

/-- The command `LoadRom(bytes)` (R62): the bytes at 0x200 and nothing else; a ROM that does not fit is refused. -/
def loadRomCommand (bytes : List Byte) (s : State) : CommandResult :=
  if commandInProgress s || !romFits bytes then .refused else .done (writeRom 0x200 bytes s)

/-- The command `Reset` (R260): every piece of the block's state at its reset value. The parameters stay, and so does what
belongs to the environment: its pending answers and the index of the next draw (two draws need not agree, R12). -/
def resetCommand (s : State) : CommandResult :=
  if commandInProgress s then .refused
  else .done { State.resetWith s.cfg with keys := s.keys, draws := s.draws }

/-- The environment answers a key wait, now or in advance (R12, R214). -/
def supplyKey (k : Byte) (s : State) : State := { s with keys := s.keys ++ [k] }

/-- The cpu snapshot (R43, R109). -/
structure CpuSnapshot where
  pc : Addr
  sp : Addr
  ireg : Addr
  v : Vector Byte 16
  paused : Bool
  errors : BitVec 32
  deriving DecidableEq, Repr

/-- What the cpu snapshot shows of a state (R43). -/
def cpuView (s : State) : CpuSnapshot where
  pc := s.pc
  sp := s.sp
  ireg := s.ireg
  v := s.v
  paused := s.paused
  errors := s.errors

/-- The command that reads the cpu snapshot (R43, R109): changes nothing; refused (`none`) while another command is in
progress (R110, U18). -/
def cpuSnapshot (s : State) : Option CpuSnapshot := if commandInProgress s then none else some (cpuView s)

/-- The display snapshot: width, height and the row words (R43, R109). -/
structure DisplaySnapshot where
  width : Nat
  height : Nat
  rows : Vector RowWord 32
  deriving DecidableEq, Repr

/-- What the display snapshot shows of a state (R43, R253). -/
def displayView (s : State) : DisplaySnapshot where
  width := 64
  height := 32
  rows := s.disp

/-- The command that reads the display snapshot (R43, R109): changes nothing; refused (`none`) while another command is
in progress (R110, U18). -/
def displaySnapshot (s : State) : Option DisplaySnapshot := if commandInProgress s then none else some (displayView s)

end Sys2Proof.Machine
end

