-- ==== Sys2Proof/Safety.lean ====
section
/-! DEFINITION. The terms the claims are stated in: what a safe step is, the invariant of the machine, when an access
fits in memory, how an instruction is encoded, and the frames (what stays as it was). -/

namespace Sys2Proof.Machine

/-- A step that goes on: neither a fault nor a refusal. -/
def StepGoesOn (s : State) : Prop := ∃ t, step s = .next t

/-- The engine stands between two instructions and is not faulted: the next step fetches at `pc` (R100, R105). -/
def Ready (s : State) : Prop := s.faulted = false ∧ s.keyWait = none

/-- The memory is in canonical form. -/
def MemoryOk (s : State) : Prop := Memory.wf s.cfg s.mem = true

/-- The invariant of the machine: the configuration is one that R5 admits, the memory is canonical, and `sp` is even
("invariant: stack_pointer always even", R26). -/
def Inv (s : State) : Prop := s.cfg.wellFormed = true ∧ MemoryOk s ∧ s.sp.getLsbD 0 = false

/-- The `n` bytes from `a` up lie in memory (R50, R55). -/
def Fits (a : Addr) (n : Nat) : Prop := a.toNat + n ≤ 4096

/-- The address of the `MemoryFault` of a run of bytes from `a` up that does not fit: the first one at 4096 or above. -/
def firstOutside (a : Addr) : Addr := if a.toNat < 4096 then 0x1000 else a

/-- The word `w` is the encoding of `i`, and decodes to it. -/
def EncodedAs (i : Instr) (w : Word) : Prop := encode i = w ∧ decodeWord w = .ok i

/-- Every byte of memory reads as before. -/
def KeepsMemory (s t : State) : Prop := ∀ a : Nat, t.byteAt a = s.byteAt a

/-- Every byte of memory but the `n` bytes from `a` up (each address modulo 2^16) reads as before. -/
def KeepsMemoryOutside (a : Addr) (n : Nat) (s t : State) : Prop :=
  ∀ b : Nat, (∀ k, k < n → b ≠ (a + BitVec.ofNat 16 k).toNat) → t.byteAt b = s.byteAt b

/-- Every general register but those listed is unchanged. -/
def KeepsRegsBut (xs : List Reg) (s t : State) : Prop := ∀ y, y ∉ xs → t.reg y = s.reg y

/-- Nothing but the general registers listed changes. -/
def OnlyRegs (xs : List Reg) (s t : State) : Prop :=
  t = { s with v := t.v } ∧ KeepsRegsBut xs s t ∧ KeepsMemory s t

/-- Nothing but `pc` changes. -/
def OnlyPc (s t : State) : Prop := t = { s with pc := t.pc } ∧ KeepsRegsBut [] s t ∧ KeepsMemory s t

/-- Nothing but the index register changes. -/
def OnlyIndex (s t : State) : Prop := t = { s with ireg := t.ireg } ∧ KeepsRegsBut [] s t ∧ KeepsMemory s t

/-- Nothing but the `n` bytes of memory from `a` up changes. -/
def OnlyStores (a : Addr) (n : Nat) (s t : State) : Prop :=
  t = { s with mem := t.mem } ∧ KeepsRegsBut [] s t ∧ KeepsMemoryOutside a n s t

/-- The number of tick boundaries from cycle time `t0` to `t1` (R244). -/
def ticksBetween (c : Config) (t0 t1 : Time) : Nat :=
  t1.toNat / c.tickPeriod.toNat - t0.toNat / c.tickPeriod.toNat

/-- The two timers of `t` are those of `s` brought up to the cycle time of `s` (R244). -/
def TimersSynced (s t : State) : Prop :=
  t.timerTime = s.time ∧
  (s.timerTime ≤ s.time →
    t.dt.toNat = s.dt.toNat - ticksBetween s.cfg s.timerTime s.time ∧
    t.st.toNat = s.st.toNat - ticksBetween s.cfg s.timerTime s.time)

/-- The instructions that make Io calls (R210). -/
def usesIo : Instr → Bool
  | .skp _ => true
  | .sknp _ => true
  | .ldVxDt _ => true
  | .ldVxK _ => true
  | .ldDtVx _ => true
  | .ldStVx _ => true
  | _ => false

/-- The instructions that write `pc` beyond the advance: 00EE, 1nnn, 2nnn, Bnnn and the skips (R23, R120). -/
def writesPc : Instr → Bool
  | .ret => true
  | .jp _ => true
  | .call _ => true
  | .jpV0 _ => true
  | .seImm _ _ => true
  | .sneImm _ _ => true
  | .seReg _ _ => true
  | .sneReg _ _ => true
  | .skp _ => true
  | .sknp _ => true
  | _ => false

/-- The general registers an instruction writes, by the rows 'writes' of the table of R22: `Vx`, `V0..Vx`, and `VF` as a
flag. -/
def writesReg (i : Instr) (r : Reg) : Prop :=
  match i with
  | .ldImm x _ => r = x
  | .addImm x _ => r = x
  | .ldReg x _ => r = x
  | .orReg x _ => r = x
  | .andReg x _ => r = x
  | .xorReg x _ => r = x
  | .rnd x _ => r = x
  | .ldVxDt x => r = x
  | .ldVxK x => r = x
  | .addReg x _ => r = x ∨ r = 15
  | .subReg x _ => r = x ∨ r = 15
  | .shr x _ => r = x ∨ r = 15
  | .subn x _ => r = x ∨ r = 15
  | .shl x _ => r = x ∨ r = 15
  | .drw _ _ _ => r = 15
  | .loadRegs x => r.toNat ≤ x.toNat
  | _ => False

/-- The instructions that access memory beyond their fetch (R57, R233). -/
def accessesMemory : Instr → Bool
  | .ret => true
  | .call _ => true
  | .drw _ _ _ => true
  | .ldB _ => true
  | .storeRegs _ => true
  | .loadRegs _ => true
  | _ => false

/-- The first address and the number of bytes of an instruction's memory accesses (R57, R233). -/
def memoryAccess (i : Instr) (s : State) : Addr × Nat :=
  match i with
  | .ret => (s.sp - 2, 2)
  | .call _ => (s.sp, 2)
  | .drw _ y n => (s.ireg, rowsDrawn n (drawRow (s.reg y)))
  | .ldB _ => (s.ireg, 3)
  | .storeRegs x => (s.ireg, regCount x)
  | .loadRegs x => (s.ireg, regCount x)
  | _ => (0, 0)

/-- The pixel of the sprite byte `b` blitted at column `x` that falls on column `c`: bit 7 at column `x` (R191). -/
def spritePixel (x : Nat) (b : Byte) (c : Nat) : Bool := decide (x ≤ c ∧ c ≤ x + 7) && b.getLsbD (x + 7 - c)

end Sys2Proof.Machine
end

