-- ==== Sys2Proof/Certificates/Slice0/Obligations.lean ====
section
/-! DEFINITION. The statements for the provers. Rule numbers R<n> are those of `spec/`, decisions D<n> those of
`spec/92_eei_decisions.md`, "log <n>" is `notes/assumptions/<n>.md`. A docstring that names a decision or a log entry
says that the statement rests on a choice, not on the source document's own words. -/

open Sys2Proof Sys2Proof.Machine

/-! ### Encoding -/

/-- Words written out from the encodings of R86 and the examples of the instruction rules decode to the instructions
they stand for. -/
def Obligations.WrittenWordsDecode : Prop :=
  decodeWord 0x00E0 = .ok .cls ∧ decodeWord 0x00EE = .ok .ret ∧
  decodeWord 0x220C = .ok (.call 0x20C) ∧ decodeWord 0x4211 = .ok (.sneImm 2 0x11) ∧
  decodeWord 0x8126 = .ok (.shr 1 2) ∧ decodeWord 0xB300 = .ok (.jpV0 0x300) ∧
  decodeWord 0xD125 = .ok (.drw 1 2 5) ∧ decodeWord 0xE3A1 = .ok (.sknp 3) ∧
  decodeWord 0xF518 = .ok (.ldStVx 5) ∧ decodeWord 0xF265 = .ok (.loadRegs 2) ∧
  decodeWord 0x0123 = .error .ef0 ∧ decodeWord 0x8128 = .error .ef8

/-- Decode and encode agree: every instruction, with every operand, decodes back from its word and from its two bytes
at the front of any byte sequence (R80 to R86, R70). -/
def Obligations.DecodeOfEncodeIsIdentity : Prop :=
  ∀ (i : Instr) (rest : List Byte),
    decodeWord (encode i) = .ok i ∧ decode (encodeBytes i ++ rest) = .ok (i, rest)

/-- The other direction: a word that decodes is the encoding of what it decodes to, so every bit of it is a fixed bit
or an operand bit (R88); the `y` field of `8xy6` and `8xyE` is accepted with every value and read by neither. -/
def Obligations.EveryDecodedBitIsEncoded : Prop :=
  (∀ (w : Word) (i : Instr), decodeWord w = .ok i → encode i = w) ∧
  ∀ (x y z : Reg) (s : State), decodeWord (formatR 0x8 x y 0x6) = .ok (.shr x y) ∧
    decodeWord (formatR 0x8 x y 0xE) = .ok (.shl x y) ∧
    exec (.shr x y) s = exec (.shr x z) s ∧ exec (.shl x y) s = exec (.shl x z) s

/-- The decoder and the opcode map of R86 agree: a word decodes to an instruction iff the mask and match of that
instruction's row hold and the operands are the word's fields; no second row matches it; and it is unrecognised iff no
row matches (R92). -/
def Obligations.DecoderAgreesWithOpcodeMap : Prop :=
  (∀ (w : Word) (i : Instr), decodeWord w = .ok i ↔ (i.opcodeRow.matches w = true ∧ encode i = w)) ∧
  (∀ (w : Word) (r q : OpcodeRow), r ∈ opcodeTable → q ∈ opcodeTable → r.matches w = true → q.matches w = true →
    r = q) ∧
  ∀ w : Word, (∃ e, decodeWord w = .error e) ↔ wordRecognised w = false

/-- The unrecognised words are exactly the six classes of R87, each under its own label of R231. -/
def Obligations.UnrecognisedWordsAreSixClasses : Prop :=
  ∀ w : Word,
    (decodeWord w = .error .ef0 ↔ fieldType w = 0x0 ∧ fieldAddr12 w ≠ 0x0E0 ∧ fieldAddr12 w ≠ 0x0EE) ∧
    (decodeWord w = .error .ef5 ↔ fieldType w = 0x5 ∧ fieldImm4 w ≠ 0) ∧
    (decodeWord w = .error .ef9 ↔ fieldType w = 0x9 ∧ fieldImm4 w ≠ 0) ∧
    (decodeWord w = .error .ef8 ↔ fieldType w = 0x8 ∧
      fieldImm4 w ∈ ([0x8, 0x9, 0xA, 0xB, 0xC, 0xD, 0xF] : List Imm4)) ∧
    (decodeWord w = .error .efE ↔ fieldType w = 0xE ∧ fieldImm8 w ∉ ([0x9E, 0xA1] : List Imm8)) ∧
    (decodeWord w = .error .efF ↔ fieldType w = 0xF ∧
      fieldImm8 w ∉ ([0x07, 0x0A, 0x15, 0x18, 0x1E, 0x29, 0x33, 0x55, 0x65] : List Imm8)) ∧
    decodeWord w ≠ .error .truncated

/-! ### Memory -/

/-- `MemRead(a, 1)` and `MemRead(a, 2)` (R51, R52): the byte, or the big-endian value of two bytes; the first address
at 4096 or above faults (decision D6). -/
def Obligations.MemReadIsBigEndianAndChecked : Prop :=
  ∀ (s : State) (a : Addr),
    (a.toNat < 4096 → memRead8 s a = .ok (s.byteAt a.toNat)) ∧
    (4096 ≤ a.toNat → memRead8 s a = .error a ∧ memRead16 s a = .error a) ∧
    (a.toNat = 4095 → memRead16 s a = .error (a + 1)) ∧
    (a.toNat < 4095 → ∃ w, memRead16 s a = .ok w ∧
      w.toNat = (s.byteAt a.toNat).toNat * 256 + (s.byteAt (a.toNat + 1)).toNat)

/-- `MemWrite(a, 1, v)` and `MemWrite(a, 2, v)` (R53): the bytes written read back, every other byte and everything
outside memory is unchanged, the canonical form is kept, and the first address at 4096 or above faults (decision D6). -/
def Obligations.MemWriteStoresExactlyItsBytes : Prop :=
  ∀ (s : State) (a : Addr) (b : Byte) (w : Word), MemoryOk s →
    (a.toNat < 4096 → ∃ t, memWrite8 s a b = .ok t ∧ t.byteAt a.toNat = b ∧ OnlyStores a 1 s t ∧ MemoryOk t) ∧
    (4096 ≤ a.toNat → memWrite8 s a b = .error a ∧ memWrite16 s a w = .error a) ∧
    (a.toNat = 4095 → memWrite16 s a w = .error (a + 1)) ∧
    (a.toNat < 4095 → ∃ t, memWrite16 s a w = .ok t ∧
      (t.byteAt a.toNat).toNat = w.toNat / 256 ∧ (t.byteAt (a.toNat + 1)).toNat = w.toNat % 256 ∧
      OnlyStores a 2 s t ∧ MemoryOk t)

/-- The canonical form is canonical: two memories in it that read alike at the 4096 addresses are equal (log 2). -/
def Obligations.EqualContentsEqualMemory : Prop :=
  ∀ (c : Config) (m n : Memory), Memory.wf c m = true → Memory.wf c n = true →
    (∀ a, a < 4096 → Memory.read c m a = Memory.read c n a) → m = n

/-- A word stored in memory is what a later fetch at that address sees, with nothing in between (R66; that no cache or
prefetch stands between is decision D26, log 19): a write of an instruction's word at `pc` and the step after it. -/
def Obligations.StoredWordIsFetched : Prop :=
  ∀ (s t : State) (i : Instr), Ready s → MemoryOk s → memWrite16 s s.pc (encode i) = .ok t →
    step t = accrueOutcome (costOf s.cfg i) (exec i t.advancePc)

/-! ### The step -/

/-- The phases of `Step` (R100, R101): fetch, with its fault from `pc` 0x0FFF up; advance; dispatch to the decoded
instruction with its cost, or `EmulationFault` with `COST_FAULT`; the cost added at the end. On a faulted engine no step
exists. That an access outside memory faults is decision D6, that the cost comes last decision D11, that `errors` wraps
decision D29. The one thing the model adds is that a step whose `Fx0A` still waits adds no cost yet (log 6). -/
def Obligations.StepRunsTheDecodedInstruction : Prop :=
  ∀ s : State,
    (s.faulted = true → step s = .refused .engineFaulted) ∧
    (Ready s →
      (0x0FFF ≤ s.pc.toNat → step s = .fault (.memoryFault (firstOutside s.pc))) ∧
      (s.pc.toNat < 0x0FFF →
        (∀ i, decode [s.byteAt s.pc.toNat, s.byteAt (s.pc.toNat + 1)] = .ok (i, []) →
          (∀ t, exec i { s with pc := s.pc + 2 } = .next t → t.keyWait = none →
            step s = .next { t with time := t.time + s.cfg.cost[i.row.val]'(i.row.isLt) }) ∧
          (∀ t, exec i { s with pc := s.pc + 2 } = .next t → t.keyWait ≠ none → step s = .next t) ∧
          (∀ f, exec i { s with pc := s.pc + 2 } = .fault f → step s = .fault f)) ∧
        (∀ e, decode [s.byteAt s.pc.toNat, s.byteAt (s.pc.toNat + 1)] = .error e →
          step s = .next
            { s with pc := s.pc + 2, errors := s.errors + 1, time := s.time + s.cfg.costFault })))

/-- `EmulationFault` (R232): an unrecognised word at `A` gives `pc = A + 2`, `errors + 1` and `time + COST_FAULT`, and
nothing else changes, the trace included. That `errors` wraps modulo 2^32 is decision D29. -/
def Obligations.EmulationFaultIsCountedAndNotFatal : Prop :=
  ∀ (s : State) (w : Word), Ready s → fetch s = .ok w → wordRecognised w = false →
    ∃ t, step s = .next t ∧ t.pc = s.pc + 2 ∧ t.errors.toNat = (s.errors.toNat + 1) % 2 ^ 32 ∧
      t.time.toNat = (s.time.toNat + s.cfg.costFault.toNat) % 2 ^ 64 ∧ t.trace = s.trace ∧ Ready t ∧
      t = { s with pc := t.pc, errors := t.errors, time := t.time } ∧ KeepsRegsBut [] s t ∧ KeepsMemory s t

/-- What a completed step changes at all (R104): `time` grows by a cost of at least 1, modulo 2^64: `COST_FAULT` on an
unrecognised word, else the cost of the row of the fetched instruction, or of the `Fx0A` whose wait ends (decision D11);
`errors` changes only on an unrecognised word and `paused` only on a self-jump, `watchdog`, `faulted` and the parameters
never. Only a step whose `Fx0A` still waits adds nothing to `time` (log 6). -/
def Obligations.StepSummary : Prop :=
  ∀ s t : State, Inv s → step s = .next t →
    t.watchdog = s.watchdog ∧ t.faulted = s.faulted ∧ t.cfg = s.cfg ∧
    (t.keyWait = none → ∃ c : Time, 1 ≤ c.toNat ∧ t.time.toNat = (s.time.toNat + c.toNat) % 2 ^ 64 ∧
      ((∃ x, s.keyWait = some x ∧ c = costOf s.cfg (.ldVxK x)) ∨
       (s.keyWait = none ∧ ∃ w, fetch s = .ok w ∧
        ((∃ i, decodeWord w = .ok i ∧ c = costOf s.cfg i) ∨
         (wordRecognised w = false ∧ c = s.cfg.costFault))))) ∧
    (t.keyWait ≠ none → t.time = s.time) ∧
    (t.errors ≠ s.errors → ∃ w, fetch s = .ok w ∧ wordRecognised w = false ∧ t.errors = s.errors + 1) ∧
    (t.paused ≠ s.paused → t.paused = true ∧ ∃ nnn : Addr12, fetch s = .ok (formatA 0x1 nnn) ∧
      nnn.toNat = s.pc.toNat)

/-- Only the accesses of R233 fault, at the first address at 4096 or above, and no instruction is refused: an
instruction whose accesses fit completes, any other takes the `MemoryFault` (decision D6). -/
def Obligations.OnlyMemoryAccessesFault : Prop :=
  ∀ (i : Instr) (s : State),
    (accessesMemory i = false → ∃ t, exec i s = .next t) ∧
    (accessesMemory i = true → (memoryAccess i s).2 = 0 ∨ Fits (memoryAccess i s).1 (memoryAccess i s).2 →
      ∃ t, exec i s = .next t) ∧
    (accessesMemory i = true → (memoryAccess i s).2 ≠ 0 → ¬ Fits (memoryAccess i s).1 (memoryAccess i s).2 →
      exec i s = .fault (.memoryFault (firstOutside (memoryAccess i s).1)))

/-- Who writes what (R22, R23, R57, R104, "everything else changes only as the instruction's own rule says"): a general
register changes only by the instructions that R22 lists as writing it (as `Vx`, among `V0..Vx`, or as `VF`; that
`7xkk`, the logic operations and `Fx1E` write no flag is decisions D30, D31, log 13); `pc` changes beyond the advance
only by `00EE`, `1nnn`, `2nnn`, `Bnnn` and the six skips; memory changes only by
`2nnn`, `Fx33`, `Fx55`; the display only by `00E0`, `Dxyn`; `sp` only by `00EE`, `2nnn`; `I` only by `Annn`, `Fx1E`,
`Fx29` (that `Fx55` and `Fx65` leave it is decision D18, log 14); `paused` only by `1nnn`; the timer unit and the trace only by the six Io instructions; a key wait begins, and an
answer of the environment is taken, only in `Fx0A` (the model's own fields, log 5, log 6); a free value is drawn only by
`Cxkk`, `Ex9E`, `ExA1` (the model's own counter, log 4); `time`,
`watchdog`, `errors`, `faulted` and the parameters by no instruction. -/
def Obligations.OnlyTheirInstructionsWrite : Prop :=
  ∀ (i : Instr) (s t : State), exec i s = .next t →
    (∀ r : Reg, t.reg r ≠ s.reg r → writesReg i r) ∧
    (t.pc ≠ s.pc → writesPc i = true) ∧
    (t.mem ≠ s.mem → (∃ nnn, i = .call nnn) ∨ (∃ x, i = .ldB x) ∨ (∃ x, i = .storeRegs x)) ∧
    (t.disp ≠ s.disp → i = .cls ∨ ∃ x y n, i = .drw x y n) ∧
    (t.sp ≠ s.sp → i = .ret ∨ ∃ nnn, i = .call nnn) ∧
    (t.ireg ≠ s.ireg → (∃ nnn, i = .ldI nnn) ∨ (∃ x, i = .addI x) ∨ (∃ x, i = .ldF x)) ∧
    (t.paused ≠ s.paused → ∃ nnn, i = .jp nnn) ∧
    (usesIo i = false → t.dt = s.dt ∧ t.st = s.st ∧ t.timerTime = s.timerTime ∧ t.trace = s.trace) ∧
    (t.keyWait ≠ s.keyWait ∨ t.keys ≠ s.keys → ∃ x, i = .ldVxK x) ∧
    (t.draws ≠ s.draws → (∃ x kk, i = .rnd x kk) ∨ (∃ x, i = .skp x) ∨ (∃ x, i = .sknp x)) ∧
    t.time = s.time ∧ t.watchdog = s.watchdog ∧ t.errors = s.errors ∧ t.faulted = s.faulted ∧ t.cfg = s.cfg

/-- The invariant: an admitted configuration, a canonical memory and an even stack pointer (R26) are kept by every step
that answers a next state. -/
def Obligations.EveryStepKeepsInvariant : Prop :=
  ∀ s t : State, Inv s → step s = .next t → Inv t

/-- The invariant holds after reset, in the reference configuration and in every configuration that R5 admits. -/
def Obligations.ResetMeetsInvariant : Prop :=
  Inv State.reset ∧ ∀ c : Config, c.wellFormed = true → Inv (State.resetWith c)

/-! ### Control transfer -/

/-- `00EE` RET (R121): `sp` goes back by 2 and `pc` becomes the big-endian word there, all 16 bits of it; nothing
else changes; the pop faults if the new `sp` is 0x0FFF or above (decision D6). The order of pop and retreat
is decision D4. -/
def Obligations.RetPopsReturnAddress : Prop :=
  EncodedAs .ret 0x00EE ∧
  ∀ s : State,
    (Fits (s.sp - 2) 2 → ∃ t, exec .ret s = .next t ∧ t.sp = s.sp - 2 ∧
      t.pc.toNat = (s.byteAt (s.sp - 2).toNat).toNat * 256 + (s.byteAt ((s.sp - 2).toNat + 1)).toNat ∧
      t = { s with sp := t.sp, pc := t.pc } ∧ KeepsRegsBut [] s t ∧ KeepsMemory s t) ∧
    (¬ Fits (s.sp - 2) 2 → exec .ret s = .fault (.memoryFault (firstOutside (s.sp - 2))))

/-- `1nnn` JP nnn (R122): `pc` becomes the target whatever it is, `paused` is set if the target is the address the jump
was fetched from (where that the jump is still made is decision D7), and nothing else changes. -/
def Obligations.JumpGoesToTarget : Prop :=
  ∀ (nnn : Addr12) (s : State), EncodedAs (.jp nnn) (formatA 0x1 nnn) ∧
    ∃ t, exec (.jp nnn) s = .next t ∧ t.pc.toNat = nnn.toNat ∧
      (nnn.toNat = (s.pc - 2).toNat → t.paused = true) ∧
      (nnn.toNat ≠ (s.pc - 2).toNat → t.paused = s.paused) ∧
      t = { s with pc := t.pc, paused := t.paused } ∧ KeepsRegsBut [] s t ∧ KeepsMemory s t

/-- A self-jump pauses and stays where it is (R123): the step at a `JP $` sets `paused`, adds its cost and leaves `pc` and
everything else alone, and the next step does the same again. That `pc` stays on the jump is decision D7. -/
def Obligations.SelfJumpPausesInPlace : Prop :=
  ∀ (s : State) (nnn : Addr12), Ready s → fetch s = .ok (formatA 0x1 nnn) → nnn.toNat = s.pc.toNat →
    step s = .next { s with paused := true, time := s.time + costOf s.cfg (.jp nnn) } ∧
    step { s with paused := true, time := s.time + costOf s.cfg (.jp nnn) } =
      .next { s with paused := true, time := s.time + costOf s.cfg (.jp nnn) + costOf s.cfg (.jp nnn) }

/-- `2nnn` CALL nnn (R124): the advanced `pc` is stored big-endian at `sp`, `sp` advances by 2, `pc` becomes the target;
no other byte and nothing else changes; the push faults if `sp` is 0x0FFF or above (decision D6). The order of push and
advance is decision D4. -/
def Obligations.CallPushesReturnAddress : Prop :=
  ∀ (nnn : Addr12) (s : State), EncodedAs (.call nnn) (formatA 0x2 nnn) ∧
    (MemoryOk s → Fits s.sp 2 → ∃ t, exec (.call nnn) s = .next t ∧ t.sp = s.sp + 2 ∧ t.pc.toNat = nnn.toNat ∧
      (t.byteAt s.sp.toNat).toNat = s.pc.toNat / 256 ∧ (t.byteAt (s.sp.toNat + 1)).toNat = s.pc.toNat % 256 ∧
      t = { s with sp := t.sp, pc := t.pc, mem := t.mem } ∧ KeepsRegsBut [] s t ∧
      KeepsMemoryOutside s.sp 2 s t) ∧
    (¬ Fits s.sp 2 → exec (.call nnn) s = .fault (.memoryFault (firstOutside s.sp)))

/-- `CALL`, then anything that leaves the two stack bytes and `sp` alone, then `RET`: `pc` is the address after the
`CALL` and `sp` is as before it (the source's property "`CALL`/`RET` round-trip", V7). -/
def Obligations.CallThenRetReturns : Prop :=
  ∀ (nnn : Addr12) (s t u : State), MemoryOk s → exec (.call nnn) s = .next t → u.sp = t.sp →
    u.byteAt s.sp.toNat = t.byteAt s.sp.toNat → u.byteAt (s.sp.toNat + 1) = t.byteAt (s.sp.toNat + 1) →
    ∃ r, exec .ret u = .next r ∧ r.pc = s.pc ∧ r.sp = s.sp

/-- `3xkk` and `4xkk` (R125, R126): `pc` grows by 2 more iff the register equals, or differs from, the immediate; nothing
else changes. -/
def Obligations.ImmediateSkips : Prop :=
  ∀ (x : Reg) (kk : Imm8) (s : State),
    EncodedAs (.seImm x kk) (formatI 0x3 x kk) ∧ EncodedAs (.sneImm x kk) (formatI 0x4 x kk) ∧
    (∃ t, exec (.seImm x kk) s = .next t ∧
      (s.reg x = kk → t.pc = s.pc + 2) ∧ (s.reg x ≠ kk → t.pc = s.pc) ∧ OnlyPc s t) ∧
    (∃ t, exec (.sneImm x kk) s = .next t ∧
      (s.reg x ≠ kk → t.pc = s.pc + 2) ∧ (s.reg x = kk → t.pc = s.pc) ∧ OnlyPc s t)

/-- `5xy0` and `9xy0` (R127, R128): `pc` grows by 2 more iff the registers are equal, or differ; nothing else changes;
with a low nibble other than 0 the word is an `EmulationFault` (its effect is `EmulationFaultIsCountedAndNotFatal`) and
no skip is made. -/
def Obligations.RegisterSkips : Prop :=
  ∀ (x y : Reg) (s : State),
    EncodedAs (.seReg x y) (formatR 0x5 x y 0) ∧ EncodedAs (.sneReg x y) (formatR 0x9 x y 0) ∧
    (∃ t, exec (.seReg x y) s = .next t ∧
      (s.reg x = s.reg y → t.pc = s.pc + 2) ∧ (s.reg x ≠ s.reg y → t.pc = s.pc) ∧ OnlyPc s t) ∧
    (∃ t, exec (.sneReg x y) s = .next t ∧
      (s.reg x ≠ s.reg y → t.pc = s.pc + 2) ∧ (s.reg x = s.reg y → t.pc = s.pc) ∧ OnlyPc s t) ∧
    (∀ n : Imm4, n ≠ 0 → Ready s → fetch s = .ok (formatR 0x5 x y n) ∨ fetch s = .ok (formatR 0x9 x y n) →
      step s = .next (unrecognisedWord s.advancePc))

/-- `Bnnn` JP V0, nnn (R129): `pc` becomes the exact sum of `V0` and `nnn`, not reduced to 12 bits (decision D21); no
self-jump test is made; nothing else changes. -/
def Obligations.JumpWithOffset : Prop :=
  ∀ (nnn : Addr12) (s : State), EncodedAs (.jpV0 nnn) (formatA 0xB nnn) ∧
    ∃ t, exec (.jpV0 nnn) s = .next t ∧ t.pc.toNat = (s.reg 0).toNat + nnn.toNat ∧ t.paused = s.paused ∧ OnlyPc s t

/-! ### Register load, arithmetic, logic, shift, random -/

/-- `6xkk` and `8xy0` (R142, R144): the destination gets the immediate, or the other register's value; no other register
(`VF` included, unless it is the destination) and nothing else changes. -/
def Obligations.LoadsIntoRegister : Prop :=
  ∀ (x y : Reg) (kk : Imm8) (s : State),
    EncodedAs (.ldImm x kk) (formatI 0x6 x kk) ∧ EncodedAs (.ldReg x y) (formatR 0x8 x y 0x0) ∧
    (∃ t, exec (.ldImm x kk) s = .next t ∧ t.reg x = kk ∧ OnlyRegs [x] s t) ∧
    (∃ t, exec (.ldReg x y) s = .next t ∧ t.reg x = s.reg y ∧ OnlyRegs [x] s t)

/-- `7xkk`, `8xy1`, `8xy2`, `8xy3` (R143, R145 to R147): the sum modulo 256, and the bitwise OR, AND and XOR; no other
register changes, so `VF` gets no flag (decision D31 for the logic operations, an inference of R143 for `7xkk`). -/
def Obligations.AddImmediateAndLogicLeaveFlag : Prop :=
  ∀ (x y : Reg) (kk : Imm8) (s : State),
    (∃ t, exec (.addImm x kk) s = .next t ∧ (t.reg x).toNat = ((s.reg x).toNat + kk.toNat) % 256 ∧
      OnlyRegs [x] s t) ∧
    (∃ t, exec (.orReg x y) s = .next t ∧ OnlyRegs [x] s t ∧
      ∀ j, (t.reg x).getLsbD j = ((s.reg x).getLsbD j || (s.reg y).getLsbD j)) ∧
    (∃ t, exec (.andReg x y) s = .next t ∧ OnlyRegs [x] s t ∧
      ∀ j, (t.reg x).getLsbD j = ((s.reg x).getLsbD j && (s.reg y).getLsbD j)) ∧
    (∃ t, exec (.xorReg x y) s = .next t ∧ OnlyRegs [x] s t ∧
      ∀ j, (t.reg x).getLsbD j = ((s.reg x).getLsbD j ^^ (s.reg y).getLsbD j))

/-- `8xy4` ADD Vx, Vy (R148): the sum modulo 256, the carry in `VF`; with `x = 15` `VF` holds the carry (decision
D10); nothing else changes. -/
def Obligations.AddSetsCarry : Prop :=
  ∀ (x y : Reg) (s : State), EncodedAs (.addReg x y) (formatR 0x8 x y 0x4) ∧
    ∃ t, exec (.addReg x y) s = .next t ∧
      (x ≠ 15 → (t.reg x).toNat = ((s.reg x).toNat + (s.reg y).toNat) % 256) ∧
      (255 < (s.reg x).toNat + (s.reg y).toNat → t.reg 15 = 1) ∧
      ((s.reg x).toNat + (s.reg y).toNat ≤ 255 → t.reg 15 = 0) ∧
      OnlyRegs [x, 15] s t

/-- `8xy5` SUB and `8xy7` SUBN (R149, R151): the difference modulo 256, not-borrow in `VF`, whatever the parameters
`SUB_EQ_FLAG` and `SUBN_EQ_FLAG` are (decision D9; with `x = 15` the flag stays, decision D10); nothing else
changes. -/
def Obligations.SubtractionsSetNotBorrow : Prop :=
  ∀ (x y : Reg) (s : State),
    (∃ t, exec (.subReg x y) s = .next t ∧
      (x ≠ 15 → (t.reg x).toNat = ((s.reg x).toNat + 256 - (s.reg y).toNat) % 256) ∧
      ((s.reg y).toNat < (s.reg x).toNat → t.reg 15 = 1) ∧
      ((s.reg x).toNat = (s.reg y).toNat → (t.reg 15).toNat = s.cfg.subEqFlag.toNat) ∧
      ((s.reg x).toNat < (s.reg y).toNat → t.reg 15 = 0) ∧ OnlyRegs [x, 15] s t) ∧
    (∃ t, exec (.subn x y) s = .next t ∧
      (x ≠ 15 → (t.reg x).toNat = ((s.reg y).toNat + 256 - (s.reg x).toNat) % 256) ∧
      ((s.reg x).toNat < (s.reg y).toNat → t.reg 15 = 1) ∧
      ((s.reg y).toNat = (s.reg x).toNat → (t.reg 15).toNat = s.cfg.subnEqFlag.toNat) ∧
      ((s.reg y).toNat < (s.reg x).toNat → t.reg 15 = 0) ∧ OnlyRegs [x, 15] s t)

/-- `8xy6` SHR and `8xyE` SHL (R150, R152): one bit, a 0 shifted in, the bit shifted out in `VF`; `Vy` is neither read nor
written; with `x = 15` `VF` holds the bit shifted out (decision D10); nothing else changes. -/
def Obligations.ShiftsIgnoreVy : Prop :=
  ∀ (x y : Reg) (s : State),
    EncodedAs (.shr x y) (formatR 0x8 x y 0x6) ∧ EncodedAs (.shl x y) (formatR 0x8 x y 0xE) ∧
    (∃ t, exec (.shr x y) s = .next t ∧ (x ≠ 15 → (t.reg x).toNat = (s.reg x).toNat / 2) ∧
      (t.reg 15).toNat = (s.reg x).toNat % 2 ∧ OnlyRegs [x, 15] s t) ∧
    (∃ t, exec (.shl x y) s = .next t ∧ (x ≠ 15 → (t.reg x).toNat = (s.reg x).toNat * 2 % 256) ∧
      (t.reg 15).toNat = (s.reg x).toNat / 128 ∧ OnlyRegs [x, 15] s t)

/-- `Cxkk` RND Vx, kk (R153): the draw masked; a bit that is 0 in `kk` is 0 in the result, every other bit is the draw's;
one draw is used; no Io call is made and nothing else changes. The draw is a free value (decision D15, log 4). -/
def Obligations.RandomIsMaskedDraw : Prop :=
  ∀ (x : Reg) (kk : Imm8) (s : State),
    ∃ t, exec (.rnd x kk) s = .next t ∧
      (∀ j, (t.reg x).getLsbD j = (kk.getLsbD j && (Config.randomByte s.draws).getLsbD j)) ∧
      t.draws = s.draws + 1 ∧ t = { s with v := t.v, draws := t.draws } ∧ KeepsRegsBut [x] s t ∧ KeepsMemory s t

/-! ### Index register and memory -/

/-- `Annn` LD I, nnn (R170): the index register gets the address, at most 0x0FFF; nothing else changes. -/
def Obligations.LoadIndex : Prop :=
  ∀ (nnn : Addr12) (s : State), EncodedAs (.ldI nnn) (formatA 0xA nnn) ∧
    ∃ t, exec (.ldI nnn) s = .next t ∧ t.ireg.toNat = nnn.toNat ∧ t.ireg.toNat ≤ 0x0FFF ∧ OnlyIndex s t

/-- `Fx1E` ADD I, Vx (R171): the sum modulo 2^16; no flag (decision D30), no fault, nothing else changes. -/
def Obligations.AddToIndexWraps : Prop :=
  ∀ (x : Reg) (s : State), EncodedAs (.addI x) (formatI 0xF x 0x1E) ∧
    ∃ t, exec (.addI x) s = .next t ∧ t.ireg.toNat = (s.ireg.toNat + (s.reg x).toNat) % 65536 ∧ OnlyIndex s t

/-- `Fx29` LD F, Vx (R172): the index register points at the glyph of the low nibble of `Vx` (decision D16), where the
reset memory holds that glyph's five bytes of `FONT_DATA`; nothing else changes. -/
def Obligations.FontAddressPointsAtGlyph : Prop :=
  ∀ (x : Reg) (s : State), s.cfg.fontFits = true →
    ∃ t, exec (.ldF x) s = .next t ∧
      t.ireg.toNat = s.cfg.fontBase.toNat + 5 * ((s.reg x).toNat % 16) ∧ OnlyIndex s t ∧
      ∀ (k : Nat) (hk : k < 5), (State.resetWith s.cfg).byteAt (t.ireg.toNat + k) =
        s.cfg.fontData[5 * ((s.reg x).toNat % 16) + k]'(by omega)

/-- `Fx33` LD B, Vx (R173): three digits, hundreds first (decision D17), that make up the register's value, stored at
`I`, `I + 1`, `I + 2`; no other byte and nothing else changes; a byte that does not fit faults (decision D6). -/
def Obligations.BcdStoresThreeDigits : Prop :=
  ∀ (x : Reg) (s : State), MemoryOk s →
    (Fits s.ireg 3 → ∃ t, exec (.ldB x) s = .next t ∧
      (s.reg x).toNat = 100 * (t.byteAt s.ireg.toNat).toNat + 10 * (t.byteAt (s.ireg.toNat + 1)).toNat +
        (t.byteAt (s.ireg.toNat + 2)).toNat ∧
      (t.byteAt (s.ireg.toNat + 1)).toNat ≤ 9 ∧ (t.byteAt (s.ireg.toNat + 2)).toNat ≤ 9 ∧
      OnlyStores s.ireg 3 s t) ∧
    (¬ Fits s.ireg 3 → exec (.ldB x) s = .fault (.memoryFault (firstOutside s.ireg)))

/-- `Fx55` LD [I], Vx (R174): `V0` to `Vx` at `I` to `I + x`; no other byte and nothing else changes, `I` included
(decision D18); a byte that does not fit faults (decision D6). -/
def Obligations.StoreRegistersStoresPrefix : Prop :=
  ∀ (x : Reg) (s : State), MemoryOk s →
    (Fits s.ireg (x.toNat + 1) → ∃ t, exec (.storeRegs x) s = .next t ∧
      (∀ y : Reg, y.toNat ≤ x.toNat → t.byteAt (s.ireg.toNat + y.toNat) = s.reg y) ∧
      t.ireg = s.ireg ∧ OnlyStores s.ireg (x.toNat + 1) s t) ∧
    (¬ Fits s.ireg (x.toNat + 1) → exec (.storeRegs x) s = .fault (.memoryFault (firstOutside s.ireg)))

/-- `Fx65` LD Vx, [I] (R175): `V0` to `Vx` get the bytes at `I` to `I + x`, `VF` as data like any other; no other
register and nothing else changes, `I` included (decision D18); a byte that does not fit faults (decision D6). -/
def Obligations.LoadRegistersLoadsPrefix : Prop :=
  ∀ (x : Reg) (s : State),
    (Fits s.ireg (x.toNat + 1) → ∃ t, exec (.loadRegs x) s = .next t ∧
      (∀ y : Reg, y.toNat ≤ x.toNat → t.reg y = s.byteAt (s.ireg.toNat + y.toNat)) ∧
      (∀ y : Reg, x.toNat < y.toNat → t.reg y = s.reg y) ∧
      t = { s with v := t.v } ∧ KeepsMemory s t) ∧
    (¬ Fits s.ireg (x.toNat + 1) → exec (.loadRegs x) s = .fault (.memoryFault (firstOutside s.ireg)))

/-- Registers stored by `Fx55` come back by `Fx65` with the same `x`, whatever happened to the registers in between
(R174, R175; decision D18 keeps `I` where it was). -/
def Obligations.StoreThenLoadRestoresRegisters : Prop :=
  ∀ (x : Reg) (s t : State) (v : Vector Byte 16), MemoryOk s → exec (.storeRegs x) s = .next t →
    ∃ u, exec (.loadRegs x) { t with v := v } = .next u ∧ ∀ y : Reg, y.toNat ≤ x.toNat → u.reg y = s.reg y

/-! ### Display -/

/-- `00E0` CLS (R190, R194): every row is 0; `VF` and everything else is unchanged. -/
def Obligations.ClearBlanksDisplay : Prop :=
  EncodedAs .cls 0x00E0 ∧
  ∀ s : State, ∃ t, exec .cls s = .next t ∧ (∀ r : Fin 32, t.disp[r] = 0) ∧
    t = { s with disp := t.disp } ∧ KeepsRegsBut [] s t ∧ KeepsMemory s t

/-- The blit mask (R191): bit 7 of the byte at column `x`, bit 6 at the next, and so on; columns past 63 are dropped,
never wrapped. -/
def Obligations.BlitMaskPlacesSpriteByte : Prop :=
  ∀ (x c : Nat) (b : Byte), x ≤ 63 → c ≤ 63 → (blitMask x b).getLsbD (63 - c) = spritePixel x b c

/-- The blit (R192): the row is XORed with the mask, every other row is untouched, and the answer is true exactly when a
pixel lit before is unlit after. -/
def Obligations.BlitXorsRowAndReportsCollision : Prop :=
  ∀ (x : Nat) (y : Fin 32) (b : Byte) (d : Vector RowWord 32), x ≤ 63 →
    (blit x y b d).1[y] = d[y] ^^^ blitMask x b ∧
    (∀ r : Fin 32, r ≠ y → (blit x y b d).1[r] = d[r]) ∧
    ((blit x y b d).2 = true ↔
      ∃ c, c ≤ 63 ∧ pixelLit d c y = true ∧ pixelLit (blit x y b d).1 c y = false)

/-- `Dxyn` DRW Vx, Vy, n (R195): rows `y0` to `y0 + n - 1` that lie on the display are XORed with the sprite bytes from
`I` up, placed at column `x0` (`x0 = Vx & 63`, `y0 = Vy & 31`, both read before anything is written); every other
pixel is unchanged; `VF` is 1 if a lit pixel was cleared, else 0; no other register, no byte of memory and nothing
else changes. Only a drawn row whose byte does not fit in memory faults (decisions D6, D19). -/
def Obligations.DrawXorsSprite : Prop :=
  ∀ (x y : Reg) (n : Imm4) (s : State), EncodedAs (.drw x y n) (formatR 0xD x y n) ∧
    let x0 := (s.reg x).toNat % 64
    let y0 := (s.reg y).toNat % 32
    let rows := min n.toNat (32 - y0)
    (rows = 0 ∨ Fits s.ireg rows → ∃ t, exec (.drw x y n) s = .next t ∧
      (∀ (c : Nat) (r : Fin 32), c ≤ 63 → pixelLit t.disp c r =
        (pixelLit s.disp c r ^^
          (decide (y0 ≤ r.val ∧ r.val < y0 + rows) &&
            spritePixel x0 (s.byteAt (s.ireg.toNat + (r.val - y0))) c))) ∧
      ((∃ (c : Nat) (r : Fin 32), c ≤ 63 ∧ pixelLit s.disp c r = true ∧ pixelLit t.disp c r = false) →
        t.reg 15 = 1) ∧
      ((¬ ∃ (c : Nat) (r : Fin 32), c ≤ 63 ∧ pixelLit s.disp c r = true ∧ pixelLit t.disp c r = false) →
        t.reg 15 = 0) ∧
      t = { s with v := t.v, disp := t.disp } ∧ KeepsRegsBut [15] s t ∧ KeepsMemory s t) ∧
    (rows ≠ 0 → ¬ Fits s.ireg rows → exec (.drw x y n) s = .fault (.memoryFault (firstOutside s.ireg)))

/-- Drawing the same sprite twice gives the display back (the source's property "Draw collision", V5), for coordinates
held in registers other than `VF`; on a blank display the first draw reports no collision, and the second one does
if the first lit a pixel. -/
def Obligations.DrawingTwiceErases : Prop :=
  ∀ (x y : Reg) (n : Imm4) (s t : State), x ≠ 15 → y ≠ 15 → exec (.drw x y n) s = .next t →
    ∃ u, exec (.drw x y n) t = .next u ∧ u.disp = s.disp ∧
      (s.disp = Vector.replicate 32 0 → t.reg 15 = 0 ∧ (t.disp ≠ s.disp → u.reg 15 = 1))

/-! ### Keypad and timers -/

/-- Sync first (R210): each of the six Io instructions makes exactly `IoSync(time)`, with the time before its cost, and
then exactly one other call (`Fx0A` the second one when its key comes, then or at a later step); no other instruction
and no unrecognised word makes a call; the only other sync is the one at the end of a `Run`. (That an unrecognised word makes
no call is decision D20, that the cost comes last decision D11.) -/
def Obligations.IoInstructionsSyncFirst : Prop :=
  (∀ (i : Instr) (s t : State), usesIo i = false → exec i s = .next t → t.trace = s.trace) ∧
  (∀ s : State, (unrecognisedWord s).trace = s.trace) ∧
  (∀ (x : Reg) (s : State),
    (∃ t d, exec (.skp x) s = .next t ∧ t.trace = s.trace ++ [.sync s.time, .isKeyDown (s.reg x) d]) ∧
    (∃ t d, exec (.sknp x) s = .next t ∧ t.trace = s.trace ++ [.sync s.time, .isKeyDown (s.reg x) d]) ∧
    (∃ t, exec (.ldVxDt x) s = .next t ∧ t.trace = s.trace ++ [.sync s.time, .getDelay (t.reg x)]) ∧
    (∃ t, exec (.ldDtVx x) s = .next t ∧ t.trace = s.trace ++ [.sync s.time, .setDelay (s.reg x)]) ∧
    (∃ t, exec (.ldStVx x) s = .next t ∧ t.trace = s.trace ++ [.sync s.time, .setSound (s.reg x)]) ∧
    (∀ k ks, s.keys = k :: ks →
      ∃ t, exec (.ldVxK x) s = .next t ∧ t.trace = s.trace ++ [.sync s.time, .nextKey k]) ∧
    (s.keys = [] → ∃ t, exec (.ldVxK x) s = .next t ∧ t.trace = s.trace ++ [.sync s.time] ∧
      ∀ k ks, ∃ u, step { t with keys := k :: ks, faulted := false } = .next u ∧
        u.trace = t.trace ++ [.nextKey k])) ∧
  ∀ s : State, s.faulted = false → (finishRun s).trace = s.trace ++ [.sync s.time]

/-- `Ex9E` SKP and `ExA1` SKNP (R211, R212): the environment is asked about the full 8-bit `Vx` (decision D14), the skip
is made if it answers down, or up; the timers are brought up to date, the call is traced, and nothing else changes.
The answer is a free value (log 4). -/
def Obligations.KeySkipsFollowTheAnswer : Prop :=
  ∀ (x : Reg) (s : State), ∃ (down : Bool) (t u : State),
    exec (.skp x) s = .next t ∧ exec (.sknp x) s = .next u ∧
    t.pc = (if down then s.pc + 2 else s.pc) ∧ u.pc = (if down then s.pc else s.pc + 2) ∧
    t.trace = s.trace ++ [.sync s.time, .isKeyDown (s.reg x) down] ∧ u.trace = t.trace ∧
    TimersSynced s t ∧ t.draws = s.draws + 1 ∧
    t = { s with pc := t.pc, dt := t.dt, st := t.st, timerTime := t.timerTime, trace := t.trace, draws := t.draws } ∧
    u = { t with pc := u.pc } ∧ KeepsRegsBut [] s t ∧ KeepsRegsBut [] s u ∧ KeepsMemory s t ∧ KeepsMemory s u

/-- `Fx07` LD Vx, DT (R213): the register gets the delay timer after this instruction's own sync (R244, decision D12);
nothing but that register, the timers and the trace changes. -/
def Obligations.ReadDelayTimerAfterSync : Prop :=
  ∀ (x : Reg) (s : State), EncodedAs (.ldVxDt x) (formatI 0xF x 0x07) ∧
    ∃ t, exec (.ldVxDt x) s = .next t ∧ t.reg x = t.dt ∧ TimersSynced s t ∧
      t = { s with v := t.v, dt := t.dt, st := t.st, timerTime := t.timerTime, trace := t.trace } ∧
      KeepsRegsBut [x] s t ∧ KeepsMemory s t

/-- `Fx15` LD DT, Vx and `Fx18` LD ST, Vx (R215, R216): after the sync the one timer holds `Vx`, the other one the value
the sync left it; the sound output follows `ST` (R248); nothing but the timers and the trace changes (decisions D12, D13). -/
def Obligations.SetTimersAfterSync : Prop :=
  ∀ (x : Reg) (s : State),
    EncodedAs (.ldDtVx x) (formatI 0xF x 0x15) ∧ EncodedAs (.ldStVx x) (formatI 0xF x 0x18) ∧
    ∃ t u, exec (.ldDtVx x) s = .next t ∧ exec (.ldStVx x) s = .next u ∧
      t.dt = s.reg x ∧ u.st = s.reg x ∧ (soundOn u = true ↔ s.reg x ≠ 0) ∧
      TimersSynced s { u with st := t.st } ∧ u.timerTime = t.timerTime ∧
      t = { s with dt := t.dt, st := t.st, timerTime := t.timerTime, trace := t.trace } ∧
      u = { s with dt := u.dt, st := u.st, timerTime := u.timerTime, trace := u.trace } ∧
      KeepsRegsBut [] s t ∧ KeepsRegsBut [] s u ∧ KeepsMemory s t ∧ KeepsMemory s u

/-- `Fx0A` LD Vx, K (R214) with an answer of the environment: the sync, then the key written as it is, all 8 bits;
the timers brought up to date are those of R244 (decision D12, log 16); nothing but the register, the timers, the trace
and the environment's queue changes (log 5, log 6). -/
def Obligations.KeyWaitTakesTheKey : Prop :=
  ∀ (x : Reg) (s : State) (k : Byte) (ks : List Byte), s.keys = k :: ks → s.keyWait = none →
    ∃ t, exec (.ldVxK x) s = .next t ∧ t.reg x = k ∧ t.keys = ks ∧ t.keyWait = none ∧ TimersSynced s t ∧
      t = { s with v := t.v, dt := t.dt, st := t.st, timerTime := t.timerTime, trace := t.trace, keys := t.keys } ∧
      KeepsRegsBut [x] s t ∧ KeepsMemory s t

/-- `Fx0A` without an answer (R214, R256): the step at the word makes the advance and the sync and nothing else, adds no
cost, and waits; every further step leaves the state as it is until the environment answers; the answer then ends
the wait with the key in the register and the cost added once (decision D24, log 5, log 6; the sync brings the timers up
to date by R244, decision D12, log 16). -/
def Obligations.KeyWaitBlocksUntilAnswered : Prop :=
  ∀ (x : Reg) (s : State), Ready s → fetch s = .ok (formatI 0xF x 0x0A) → s.keys = [] →
    ∃ t, step s = .next t ∧ t.keyWait = some x ∧ t.pc = s.pc + 2 ∧ t.time = s.time ∧ TimersSynced s t ∧
      t.trace = s.trace ++ [.sync s.time] ∧
      t = { s with pc := t.pc, dt := t.dt, st := t.st, timerTime := t.timerTime, trace := t.trace,
                   keyWait := t.keyWait } ∧
      step t = .next t ∧
      ∀ k, ∃ u, step (supplyKey k t) = .next u ∧ u.reg x = k ∧ u.keyWait = none ∧ u.keys = [] ∧
        u.time = t.time + costOf s.cfg (.ldVxK x) ∧ u.trace = t.trace ++ [.nextKey k] ∧
        u = { t with v := u.v, time := u.time, trace := u.trace, keyWait := none } ∧ KeepsRegsBut [x] t u

/-- A timer set to `v` at cycle time `t0` and then only synced, at any times in rising order up to `t1`, holds
`max(0, v - ((t1 div TICK_PERIOD) - (t0 div TICK_PERIOD)))` (R249 c; the counting law is decision D12). -/
def Obligations.TimerCountsTicksSinceSet : Prop :=
  ∀ (s : State) (v : Byte) (times : List Time) (t1 : Time),
    (s.time :: times ++ [t1]).Pairwise (fun a b => a.toNat ≤ b.toNat) →
    let set := ioSetDelay v (ioSetSound v (ioSync s.time s))
    let now := (times ++ [t1]).foldl (fun u t => ioSync t u) set
    now.dt.toNat = v.toNat - ticksBetween s.cfg s.time t1 ∧ now.st.toNat = v.toNat - ticksBetween s.cfg s.time t1

/-- The timers never grow except by a set (R249 a, b; decision D12): a step leaves `DT` at or below what it was unless it
executes `Fx15`, and `ST` unless it executes `Fx18`. -/
def Obligations.TimersGrowOnlyBySet : Prop :=
  ∀ s t : State, step s = .next t →
    (t.dt.toNat ≤ s.dt.toNat ∨ ∃ x, fetch s = .ok (formatI 0xF x 0x15) ∧ t.dt = s.reg x) ∧
    (t.st.toNat ≤ s.st.toNat ∨ ∃ x, fetch s = .ok (formatI 0xF x 0x18) ∧ t.st = s.reg x)

/-! ### Reset and the host's commands -/

/-- The first instruction after reset is the word at 0x200 (R262): after `Reset`, in any configuration, with a ROM loaded
whose first two bytes encode an instruction, the next step executes it with `pc` advanced to 0x202 (`LoadRom` is
decision D23). -/
def Obligations.FirstInstructionIsAtRomBase : Prop :=
  ∀ (c : Config) (i : Instr) (rest : List Byte) (s : State),
    loadRomCommand (encodeBytes i ++ rest) (State.resetWith c) = .done s →
    s.pc = 0x0200 ∧ step s = accrueOutcome (costOf c i) (exec i { s with pc := 0x0202 })

/-- What reset leaves (R42): `pc` 0x0200 and `paused` 0, which the document states, the font at `FONT_BASE`, which it
states up to two parameters, and for the rest zeros and `SP_RESET`, which are decisions D4, D5, D6, D12, and no key wait;
whatever the machine did before (log 1). What belongs to the environment is kept: its answers not taken yet and the
index of the next draw (the model's choice, log 4, log 5). -/
def Obligations.ResetLeavesResetState : Prop :=
  ∀ s : State, s.keyWait = none → ∃ t, resetCommand s = .done t ∧
    t.pc = 0x0200 ∧ t.paused = false ∧ t.faulted = false ∧ t.sp = s.cfg.spReset ∧ t.ireg = 0 ∧
    (∀ x, t.reg x = 0) ∧ t.time = 0 ∧ t.watchdog = 0 ∧ t.errors = 0 ∧ t.dt = 0 ∧ t.st = 0 ∧ t.timerTime = 0 ∧
    t.trace = [] ∧ (∀ r : Fin 32, t.disp[r] = 0) ∧ soundOn t = false ∧
    (∀ (k : Nat) (hk : k < 80), t.byteAt (s.cfg.fontBase.toNat + k) = s.cfg.fontData[k]) ∧
    (∀ a, a < s.cfg.fontBase.toNat ∨ s.cfg.fontBase.toNat + 80 ≤ a → t.byteAt a = 0) ∧ t.cfg = s.cfg ∧
    t.keyWait = none ∧ t.keys = s.keys ∧ t.draws = s.draws

/-- `LoadRom` (R62): the bytes at 0x200 up, nothing else; a ROM of more than 3584 bytes is refused (decision D23). -/
def Obligations.LoadRomWritesOnlyTheRom : Prop :=
  ∀ (bytes : List Byte) (s : State), s.keyWait = none → MemoryOk s →
    (bytes.length ≤ 3584 → ∃ t, loadRomCommand bytes s = .done t ∧ MemoryOk t ∧ t = { s with mem := t.mem } ∧
      (∀ (k : Nat) (hk : k < bytes.length), t.byteAt (0x200 + k) = bytes[k]) ∧
      (∀ a, a < 0x200 ∨ 0x200 + bytes.length ≤ a → t.byteAt a = s.byteAt a)) ∧
    (3584 < bytes.length → loadRomCommand bytes s = .refused)

/-- A faulted engine (R105, R106, R234; decision D6): no step exists, the command `Step` changes nothing, `Run` rewrites
`watchdog` only and makes no sync; a step that takes a `MemoryFault` leads there without changing `time` or
`errors`. -/
def Obligations.FaultedEngineIsStopped : Prop :=
  ∀ (s : State) (limit : Time) (n : Nat), s.keyWait = none →
    (s.faulted = true → step s = .refused .engineFaulted ∧ stepCommand s = .done s ∧
      runCommand n limit s = .done { s with watchdog := s.time + limit }) ∧
    (∀ f, step s = .fault f →
      (∃ t, stepCommand s = .done t ∧ t.faulted = true ∧ t.time = s.time ∧ t.errors = s.errors ∧
        t.trace = s.trace) ∧
      (s.paused = false → s.time < s.time + limit →
        ∃ t, runCommand (n + 1) limit s = .done t ∧ t.faulted = true ∧ t.time = s.time ∧ t.errors = s.errors ∧
          t.trace = s.trace ∧ t.watchdog = s.time + limit))

/-- A paused engine (R105, R106; decisions D8, D32): `Run` executes nothing, rewrites `watchdog` and makes its final sync;
`Step` is not gated. -/
def Obligations.PausedRunExecutesNothing : Prop :=
  ∀ (s : State) (limit : Time) (n : Nat), Ready s → s.paused = true →
    runCommand n limit s = .done (ioSync s.time { s with watchdog := s.time + limit }) ∧
    (∀ t, step s = .next t → t.keyWait = none → stepCommand s = .done t)

/-- The watchdog bound (R107): a run that starts, or goes on, with `time` at or past the deadline executes nothing, whatever
number of steps is allowed; and a run of an admitted configuration whose costs are at most `m` ends with `time` less
than `m` past the deadline, where nothing wraps (decision D27; that the cost comes at the end of a step is decision
D11). -/
def Obligations.RunStopsAtTheWatchdog : Prop :=
  (∀ (s : State) (n : Nat), s.faulted = false → s.watchdog ≤ s.time → runLoop n s = .done (ioSync s.time s)) ∧
  ∀ (s t : State) (n m : Nat) (limit : Time), Inv s → Ready s →
    (∀ i, (costOf s.cfg i).toNat ≤ m) → s.cfg.costFault.toNat ≤ m → s.time.toNat + limit.toNat + m < 2 ^ 64 →
    runCommand n limit s = .done t →
    t.time.toNat < s.time.toNat + limit.toNat + m ∧ s.time.toNat ≤ t.time.toNat

/-- Every run that no key wait blocks ends, after at most `limit` steps (R108, R277), where `time` does not wrap,
a premise that decision D27 allows; that every step costs at least 1 is decision D11. -/
def Obligations.RunEndsWithinLimitSteps : Prop :=
  ∀ (s : State) (limit : Time) (m : Nat), Inv s → Ready s →
    (∀ i, (costOf s.cfg i).toNat ≤ m) → s.cfg.costFault.toNat ≤ m → s.time.toNat + limit.toNat + m < 2 ^ 64 →
    (∃ t, runCommand limit.toNat limit s = .done t) ∨
    (∃ t x, runCommand limit.toNat limit s = .blocked t ∧ t.keyWait = some x ∧ t.keys = [])

/-- The loop of R106 makes its steps: the test holds exactly while `paused` is 0, `time` is below `watchdog` and `faulted`
is 0 (the last is decision D6); while it holds, a completed step is made and the loop goes on from its state, and a step
that waits for a key blocks the run; when it fails, the run is over with one more `IoSync(time)`, not made on a faulted
engine (D6, D32). `Run` sets the deadline (decision D27) and enters the loop; the command `Step` is one step, paused or
not (R105, R109, decision D8). -/
def Obligations.RunLoopMakesItsSteps : Prop :=
  ∀ (s : State) (n : Nat),
    (runGoesOn s = true ↔ s.paused = false ∧ s.time.toNat < s.watchdog.toNat ∧ s.faulted = false) ∧
    (∀ t, runGoesOn s = true → step s = .next t → t.keyWait = none → runLoop (n + 1) s = runLoop n t) ∧
    (∀ t, runGoesOn s = true → step s = .next t → t.keyWait ≠ none → runLoop (n + 1) s = .blocked t) ∧
    (runGoesOn s = false → s.faulted = false → runLoop n s = .done (ioSync s.time s)) ∧
    (runGoesOn s = false → s.faulted = true → runLoop n s = .done s) ∧
    (∀ limit : Time, s.keyWait = none → runCommand n limit s = runLoop n { s with watchdog := s.time + limit }) ∧
    (∀ t, s.keyWait = none → step s = .next t → t.keyWait = none → stepCommand s = .done t) ∧
    (∀ t, s.keyWait = none → step s = .next t → t.keyWait ≠ none → stepCommand s = .blocked t)

/-- A run of many steps (R106): a run that ends without a key wait or a fault has made some number `k` of completed steps,
each where the loop test held, one after the other from the state with the new deadline, and its state is the last of
them after the final `IoSync` (decision D32), where the loop test fails. -/
def Obligations.RunIsItsStepsThenSync : Prop :=
  ∀ (s t : State) (n : Nat) (limit : Time), s.keyWait = none → runCommand n limit s = .done t → t.faulted = false →
    ∃ (k : Nat) (u : Nat → State), k ≤ n ∧ u 0 = { s with watchdog := s.time + limit } ∧
      (∀ j, j < k → runGoesOn (u j) = true ∧ step (u j) = .next (u (j + 1)) ∧ (u (j + 1)).keyWait = none) ∧
      runGoesOn (u k) = false ∧ t = ioSync (u k).time (u k)

/-- Commands are serialised (R13, R58, R110, R214, R273; U18): while a key wait keeps a command from ending, none of
`Reset`, `LoadRom`, `Step`, `Run`, the cpu snapshot and the display snapshot is accepted (log 18); otherwise the snapshots
show the state as it is (R43, decision D28): `pc`, `sp`, `I`, the 16 registers, `paused`, `errors`; and 64, 32 and the 32
rows. -/
def Obligations.KeyWaitRefusesEveryCommand : Prop :=
  ∀ s : State,
    (∀ x, s.keyWait = some x →
      resetCommand s = .refused ∧ (∀ bytes, loadRomCommand bytes s = .refused) ∧ stepCommand s = .refused ∧
      (∀ n limit, runCommand n limit s = .refused) ∧ cpuSnapshot s = none ∧ displaySnapshot s = none) ∧
    (s.keyWait = none →
      (∃ c, cpuSnapshot s = some c ∧ c.pc = s.pc ∧ c.sp = s.sp ∧ c.ireg = s.ireg ∧
        (∀ x : Reg, c.v[x.toNat]'(x.isLt) = s.reg x) ∧ c.paused = s.paused ∧ c.errors = s.errors) ∧
      ∃ d, displaySnapshot s = some d ∧ d.width = 64 ∧ d.height = 32 ∧ ∀ r : Fin 32, d.rows[r] = s.disp[r])
end

