-- ==== Sys2Proof/Laws/Decode.lean ====
section
/-! SUPPORT. Fields, formats and bytes of a word as numbers (R70, R81 to R84); from these, the fields of a format, and the
formats put together again from the fields. -/

namespace Sys2Proof

theorem append_toNat {m n : Nat} (a : BitVec m) (b : BitVec n) :
    (a ++ b).toNat = a.toNat * 2 ^ n + b.toNat := by
  rw [BitVec.toNat_append, Nat.shiftLeft_eq, Nat.mul_comm, ← Nat.two_pow_add_eq_or_of_lt b.isLt]

theorem fieldType_toNat (w : Word) : (fieldType w).toNat = w.toNat / 4096 % 16 := by
  simp [fieldType, BitVec.extractLsb'_toNat, Nat.shiftRight_eq_div_pow]

theorem fieldX_toNat (w : Word) : (fieldX w).toNat = w.toNat / 256 % 16 := by
  simp [fieldX, BitVec.extractLsb'_toNat, Nat.shiftRight_eq_div_pow]

theorem fieldY_toNat (w : Word) : (fieldY w).toNat = w.toNat / 16 % 16 := by
  simp [fieldY, BitVec.extractLsb'_toNat, Nat.shiftRight_eq_div_pow]

theorem fieldImm4_toNat (w : Word) : (fieldImm4 w).toNat = w.toNat % 16 := by
  simp [fieldImm4, BitVec.extractLsb'_toNat]

theorem fieldImm8_toNat (w : Word) : (fieldImm8 w).toNat = w.toNat % 256 := by
  simp [fieldImm8, BitVec.extractLsb'_toNat]

theorem fieldAddr12_toNat (w : Word) : (fieldAddr12 w).toNat = w.toNat % 4096 := by
  simp [fieldAddr12, BitVec.extractLsb'_toNat]

theorem formatA_toNat (t : BitVec 4) (a : Addr12) : (formatA t a).toNat = t.toNat * 4096 + a.toNat :=
  append_toNat t a

theorem formatI_toNat (t : BitVec 4) (x : Reg) (kk : Imm8) :
    (formatI t x kk).toNat = t.toNat * 4096 + x.toNat * 256 + kk.toNat := by
  have h := append_toNat (t ++ x) kk
  rw [append_toNat t x] at h
  exact h.trans (by omega)

theorem formatR_toNat (t : BitVec 4) (x y : Reg) (n : Imm4) :
    (formatR t x y n).toNat = t.toNat * 4096 + x.toNat * 256 + y.toNat * 16 + n.toNat := by
  have h := append_toNat (t ++ x ++ y) n
  rw [append_toNat (t ++ x) y, append_toNat t x] at h
  exact h.trans (by omega)

/-! ### Fields of a format -/

@[simp] theorem fieldType_formatA (t : BitVec 4) (a : Addr12) : fieldType (formatA t a) = t := by
  apply BitVec.eq_of_toNat_eq; rw [fieldType_toNat, formatA_toNat]; omega

@[simp] theorem fieldAddr12_formatA (t : BitVec 4) (a : Addr12) : fieldAddr12 (formatA t a) = a := by
  apply BitVec.eq_of_toNat_eq; rw [fieldAddr12_toNat, formatA_toNat]; omega

@[simp] theorem fieldType_formatI (t : BitVec 4) (x : Reg) (kk : Imm8) : fieldType (formatI t x kk) = t := by
  apply BitVec.eq_of_toNat_eq; rw [fieldType_toNat, formatI_toNat]; omega

@[simp] theorem fieldX_formatI (t : BitVec 4) (x : Reg) (kk : Imm8) : fieldX (formatI t x kk) = x := by
  apply BitVec.eq_of_toNat_eq; rw [fieldX_toNat, formatI_toNat]; omega

@[simp] theorem fieldImm8_formatI (t : BitVec 4) (x : Reg) (kk : Imm8) : fieldImm8 (formatI t x kk) = kk := by
  apply BitVec.eq_of_toNat_eq; rw [fieldImm8_toNat, formatI_toNat]; omega

@[simp] theorem fieldType_formatR (t : BitVec 4) (x y : Reg) (n : Imm4) : fieldType (formatR t x y n) = t := by
  apply BitVec.eq_of_toNat_eq; rw [fieldType_toNat, formatR_toNat]; omega

@[simp] theorem fieldX_formatR (t : BitVec 4) (x y : Reg) (n : Imm4) : fieldX (formatR t x y n) = x := by
  apply BitVec.eq_of_toNat_eq; rw [fieldX_toNat, formatR_toNat]; omega

@[simp] theorem fieldY_formatR (t : BitVec 4) (x y : Reg) (n : Imm4) : fieldY (formatR t x y n) = y := by
  apply BitVec.eq_of_toNat_eq; rw [fieldY_toNat, formatR_toNat]; omega

@[simp] theorem fieldImm4_formatR (t : BitVec 4) (x y : Reg) (n : Imm4) : fieldImm4 (formatR t x y n) = n := by
  apply BitVec.eq_of_toNat_eq; rw [fieldImm4_toNat, formatR_toNat]; omega

@[simp] theorem fieldY_formatI (t : BitVec 4) (x : Reg) (kk : Imm8) :
    fieldY (formatI t x kk) = kk.extractLsb' 4 4 := by
  apply BitVec.eq_of_toNat_eq
  rw [fieldY_toNat, formatI_toNat, BitVec.extractLsb'_toNat, Nat.shiftRight_eq_div_pow]; omega

@[simp] theorem fieldImm4_formatI (t : BitVec 4) (x : Reg) (kk : Imm8) :
    fieldImm4 (formatI t x kk) = kk.extractLsb' 0 4 := by
  apply BitVec.eq_of_toNat_eq
  rw [fieldImm4_toNat, formatI_toNat, BitVec.extractLsb'_toNat]; simp; omega

/-! ### A word from its fields -/

theorem formatA_fields (w : Word) : formatA (fieldType w) (fieldAddr12 w) = w := by
  apply BitVec.eq_of_toNat_eq; rw [formatA_toNat, fieldType_toNat, fieldAddr12_toNat]; omega

theorem formatI_fields (w : Word) : formatI (fieldType w) (fieldX w) (fieldImm8 w) = w := by
  apply BitVec.eq_of_toNat_eq; rw [formatI_toNat, fieldType_toNat, fieldX_toNat, fieldImm8_toNat]; omega

theorem formatR_fields (w : Word) : formatR (fieldType w) (fieldX w) (fieldY w) (fieldImm4 w) = w := by
  apply BitVec.eq_of_toNat_eq
  rw [formatR_toNat, fieldType_toNat, fieldX_toNat, fieldY_toNat, fieldImm4_toNat]; omega

/-! ### The masks of the opcode map -/

theorem formatR_getLsbD (t : BitVec 4) (x y : Reg) (n : Imm4) (i : Nat) :
    (formatR t x y n).getLsbD i =
      if i < 4 then n.getLsbD i else if i < 8 then y.getLsbD (i - 4)
      else if i < 12 then x.getLsbD (i - 8) else t.getLsbD (i - 12) := by
  unfold formatR
  rw [BitVec.getLsbD_append, BitVec.getLsbD_append, BitVec.getLsbD_append]
  by_cases h1 : i < 4
  · rw [if_pos h1, if_pos h1]
  · rw [if_neg h1, if_neg h1]
    by_cases h2 : i < 8
    · rw [if_pos h2, if_pos (by omega)]
    · rw [if_neg h2, if_neg (by omega)]
      by_cases h3 : i < 12
      · rw [if_pos h3, if_pos (by omega)]; congr 1
      · rw [if_neg h3, if_neg (by omega)]; congr 1

/-- The mask of formats A and I keeps `type` (R86). -/
theorem and_F000 (w : Word) : w &&& 0xF000 = formatR (fieldType w) 0 0 0 := by
  apply BitVec.eq_of_getLsbD_eq
  intro i hi
  rw [formatR_getLsbD]
  interval_cases i <;> simp [fieldType]

/-- The mask of format R with a sub-opcode keeps `type` and `imm4` (R86). -/
theorem and_F00F (w : Word) : w &&& 0xF00F = formatR (fieldType w) 0 0 (fieldImm4 w) := by
  apply BitVec.eq_of_getLsbD_eq
  intro i hi
  rw [formatR_getLsbD]
  interval_cases i <;> simp [fieldType, fieldImm4]

/-- The mask of types 0xE and 0xF keeps `type` and `imm8` (R86). -/
theorem and_F0FF (w : Word) : w &&& 0xF0FF = formatR (fieldType w) 0 (fieldY w) (fieldImm4 w) := by
  apply BitVec.eq_of_getLsbD_eq
  intro i hi
  rw [formatR_getLsbD]
  interval_cases i <;> simp [fieldType, fieldImm4, fieldY]

/-! ### Bytes of a word -/

theorem wordOfBytes_toNat (a b : Byte) : (wordOfBytes a b).toNat = a.toNat * 256 + b.toNat := append_toNat a b

theorem highByte_toNat (w : Word) : (highByte w).toNat = w.toNat / 256 := by
  have := w.isLt
  rw [highByte, BitVec.extractLsb'_toNat, Nat.shiftRight_eq_div_pow]
  omega

theorem lowByte_toNat (w : Word) : (lowByte w).toNat = w.toNat % 256 := by
  simp [lowByte, BitVec.extractLsb'_toNat]

@[simp] theorem wordOfBytes_bytes (w : Word) : wordOfBytes (highByte w) (lowByte w) = w := by
  apply BitVec.eq_of_toNat_eq; rw [wordOfBytes_toNat, highByte_toNat, lowByte_toNat]; omega

@[simp] theorem highByte_wordOfBytes (a b : Byte) : highByte (wordOfBytes a b) = a := by
  apply BitVec.eq_of_toNat_eq; rw [highByte_toNat, wordOfBytes_toNat]; omega

@[simp] theorem lowByte_wordOfBytes (a b : Byte) : lowByte (wordOfBytes a b) = b := by
  apply BitVec.eq_of_toNat_eq; rw [lowByte_toNat, wordOfBytes_toNat]; omega

/-- Decoding two bytes is decoding the word they make. -/
theorem decode_two (hi lo : Byte) (rest : List Byte) :
    decode (hi :: lo :: rest) =
      match decodeWord (wordOfBytes hi lo) with
      | .ok i => .ok (i, rest)
      | .error e => .error e := rfl

end Sys2Proof
end

