-- ==== Sys2Proof/Laws/State.lean ====
section
/-! SUPPORT. One lemma for each field of State under each named update, true by `rfl`, so that no proof unfolds a record
update. -/

namespace Sys2Proof.Machine

variable (s : State)

/-! ### setReg -/

@[simp] theorem setReg_v (x : Reg) (b : Byte) : (s.setReg x b).v = s.v.set x.toNat b x.isLt := rfl
@[simp] theorem setReg_pc (x : Reg) (b : Byte) : (s.setReg x b).pc = s.pc := rfl
@[simp] theorem setReg_sp (x : Reg) (b : Byte) : (s.setReg x b).sp = s.sp := rfl
@[simp] theorem setReg_ireg (x : Reg) (b : Byte) : (s.setReg x b).ireg = s.ireg := rfl
@[simp] theorem setReg_time (x : Reg) (b : Byte) : (s.setReg x b).time = s.time := rfl
@[simp] theorem setReg_watchdog (x : Reg) (b : Byte) : (s.setReg x b).watchdog = s.watchdog := rfl
@[simp] theorem setReg_errors (x : Reg) (b : Byte) : (s.setReg x b).errors = s.errors := rfl
@[simp] theorem setReg_paused (x : Reg) (b : Byte) : (s.setReg x b).paused = s.paused := rfl
@[simp] theorem setReg_faulted (x : Reg) (b : Byte) : (s.setReg x b).faulted = s.faulted := rfl
@[simp] theorem setReg_dt (x : Reg) (b : Byte) : (s.setReg x b).dt = s.dt := rfl
@[simp] theorem setReg_st (x : Reg) (b : Byte) : (s.setReg x b).st = s.st := rfl
@[simp] theorem setReg_timerTime (x : Reg) (b : Byte) : (s.setReg x b).timerTime = s.timerTime := rfl
@[simp] theorem setReg_mem (x : Reg) (b : Byte) : (s.setReg x b).mem = s.mem := rfl
@[simp] theorem setReg_disp (x : Reg) (b : Byte) : (s.setReg x b).disp = s.disp := rfl
@[simp] theorem setReg_trace (x : Reg) (b : Byte) : (s.setReg x b).trace = s.trace := rfl
@[simp] theorem setReg_keyWait (x : Reg) (b : Byte) : (s.setReg x b).keyWait = s.keyWait := rfl
@[simp] theorem setReg_keys (x : Reg) (b : Byte) : (s.setReg x b).keys = s.keys := rfl
@[simp] theorem setReg_draws (x : Reg) (b : Byte) : (s.setReg x b).draws = s.draws := rfl
@[simp] theorem setReg_cfg (x : Reg) (b : Byte) : (s.setReg x b).cfg = s.cfg := rfl

/-! ### setByte -/

@[simp] theorem setByte_v (a : Nat) (b : Byte) : (s.setByte a b).v = s.v := rfl
@[simp] theorem setByte_pc (a : Nat) (b : Byte) : (s.setByte a b).pc = s.pc := rfl
@[simp] theorem setByte_sp (a : Nat) (b : Byte) : (s.setByte a b).sp = s.sp := rfl
@[simp] theorem setByte_ireg (a : Nat) (b : Byte) : (s.setByte a b).ireg = s.ireg := rfl
@[simp] theorem setByte_time (a : Nat) (b : Byte) : (s.setByte a b).time = s.time := rfl
@[simp] theorem setByte_watchdog (a : Nat) (b : Byte) : (s.setByte a b).watchdog = s.watchdog := rfl
@[simp] theorem setByte_errors (a : Nat) (b : Byte) : (s.setByte a b).errors = s.errors := rfl
@[simp] theorem setByte_paused (a : Nat) (b : Byte) : (s.setByte a b).paused = s.paused := rfl
@[simp] theorem setByte_faulted (a : Nat) (b : Byte) : (s.setByte a b).faulted = s.faulted := rfl
@[simp] theorem setByte_dt (a : Nat) (b : Byte) : (s.setByte a b).dt = s.dt := rfl
@[simp] theorem setByte_st (a : Nat) (b : Byte) : (s.setByte a b).st = s.st := rfl
@[simp] theorem setByte_timerTime (a : Nat) (b : Byte) : (s.setByte a b).timerTime = s.timerTime := rfl
@[simp] theorem setByte_mem (a : Nat) (b : Byte) : (s.setByte a b).mem = Memory.write s.cfg s.mem a b := rfl
@[simp] theorem setByte_disp (a : Nat) (b : Byte) : (s.setByte a b).disp = s.disp := rfl
@[simp] theorem setByte_trace (a : Nat) (b : Byte) : (s.setByte a b).trace = s.trace := rfl
@[simp] theorem setByte_keyWait (a : Nat) (b : Byte) : (s.setByte a b).keyWait = s.keyWait := rfl
@[simp] theorem setByte_keys (a : Nat) (b : Byte) : (s.setByte a b).keys = s.keys := rfl
@[simp] theorem setByte_draws (a : Nat) (b : Byte) : (s.setByte a b).draws = s.draws := rfl
@[simp] theorem setByte_cfg (a : Nat) (b : Byte) : (s.setByte a b).cfg = s.cfg := rfl

/-! ### advancePc -/

@[simp] theorem advancePc_v : s.advancePc.v = s.v := rfl
@[simp] theorem advancePc_pc : s.advancePc.pc = s.pc + 2 := rfl
@[simp] theorem advancePc_sp : s.advancePc.sp = s.sp := rfl
@[simp] theorem advancePc_ireg : s.advancePc.ireg = s.ireg := rfl
@[simp] theorem advancePc_time : s.advancePc.time = s.time := rfl
@[simp] theorem advancePc_watchdog : s.advancePc.watchdog = s.watchdog := rfl
@[simp] theorem advancePc_errors : s.advancePc.errors = s.errors := rfl
@[simp] theorem advancePc_paused : s.advancePc.paused = s.paused := rfl
@[simp] theorem advancePc_faulted : s.advancePc.faulted = s.faulted := rfl
@[simp] theorem advancePc_dt : s.advancePc.dt = s.dt := rfl
@[simp] theorem advancePc_st : s.advancePc.st = s.st := rfl
@[simp] theorem advancePc_timerTime : s.advancePc.timerTime = s.timerTime := rfl
@[simp] theorem advancePc_mem : s.advancePc.mem = s.mem := rfl
@[simp] theorem advancePc_disp : s.advancePc.disp = s.disp := rfl
@[simp] theorem advancePc_trace : s.advancePc.trace = s.trace := rfl
@[simp] theorem advancePc_keyWait : s.advancePc.keyWait = s.keyWait := rfl
@[simp] theorem advancePc_keys : s.advancePc.keys = s.keys := rfl
@[simp] theorem advancePc_draws : s.advancePc.draws = s.draws := rfl
@[simp] theorem advancePc_cfg : s.advancePc.cfg = s.cfg := rfl

/-! ### takeEmulationFault -/

@[simp] theorem takeEmulationFault_v : (takeEmulationFault s).v = s.v := rfl
@[simp] theorem takeEmulationFault_pc : (takeEmulationFault s).pc = s.pc := rfl
@[simp] theorem takeEmulationFault_sp : (takeEmulationFault s).sp = s.sp := rfl
@[simp] theorem takeEmulationFault_ireg : (takeEmulationFault s).ireg = s.ireg := rfl
@[simp] theorem takeEmulationFault_time : (takeEmulationFault s).time = s.time := rfl
@[simp] theorem takeEmulationFault_watchdog : (takeEmulationFault s).watchdog = s.watchdog := rfl
@[simp] theorem takeEmulationFault_errors : (takeEmulationFault s).errors = s.errors + 1 := rfl
@[simp] theorem takeEmulationFault_paused : (takeEmulationFault s).paused = s.paused := rfl
@[simp] theorem takeEmulationFault_faulted : (takeEmulationFault s).faulted = s.faulted := rfl
@[simp] theorem takeEmulationFault_dt : (takeEmulationFault s).dt = s.dt := rfl
@[simp] theorem takeEmulationFault_st : (takeEmulationFault s).st = s.st := rfl
@[simp] theorem takeEmulationFault_timerTime : (takeEmulationFault s).timerTime = s.timerTime := rfl
@[simp] theorem takeEmulationFault_mem : (takeEmulationFault s).mem = s.mem := rfl
@[simp] theorem takeEmulationFault_disp : (takeEmulationFault s).disp = s.disp := rfl
@[simp] theorem takeEmulationFault_trace : (takeEmulationFault s).trace = s.trace := rfl
@[simp] theorem takeEmulationFault_keyWait : (takeEmulationFault s).keyWait = s.keyWait := rfl
@[simp] theorem takeEmulationFault_keys : (takeEmulationFault s).keys = s.keys := rfl
@[simp] theorem takeEmulationFault_draws : (takeEmulationFault s).draws = s.draws := rfl
@[simp] theorem takeEmulationFault_cfg : (takeEmulationFault s).cfg = s.cfg := rfl

/-! ### clearDisplay -/

@[simp] theorem clearDisplay_v : (clearDisplay s).v = s.v := rfl
@[simp] theorem clearDisplay_pc : (clearDisplay s).pc = s.pc := rfl
@[simp] theorem clearDisplay_sp : (clearDisplay s).sp = s.sp := rfl
@[simp] theorem clearDisplay_ireg : (clearDisplay s).ireg = s.ireg := rfl
@[simp] theorem clearDisplay_time : (clearDisplay s).time = s.time := rfl
@[simp] theorem clearDisplay_watchdog : (clearDisplay s).watchdog = s.watchdog := rfl
@[simp] theorem clearDisplay_errors : (clearDisplay s).errors = s.errors := rfl
@[simp] theorem clearDisplay_paused : (clearDisplay s).paused = s.paused := rfl
@[simp] theorem clearDisplay_faulted : (clearDisplay s).faulted = s.faulted := rfl
@[simp] theorem clearDisplay_dt : (clearDisplay s).dt = s.dt := rfl
@[simp] theorem clearDisplay_st : (clearDisplay s).st = s.st := rfl
@[simp] theorem clearDisplay_timerTime : (clearDisplay s).timerTime = s.timerTime := rfl
@[simp] theorem clearDisplay_mem : (clearDisplay s).mem = s.mem := rfl
@[simp] theorem clearDisplay_disp : (clearDisplay s).disp = Vector.replicate 32 0 := rfl
@[simp] theorem clearDisplay_trace : (clearDisplay s).trace = s.trace := rfl
@[simp] theorem clearDisplay_keyWait : (clearDisplay s).keyWait = s.keyWait := rfl
@[simp] theorem clearDisplay_keys : (clearDisplay s).keys = s.keys := rfl
@[simp] theorem clearDisplay_draws : (clearDisplay s).draws = s.draws := rfl
@[simp] theorem clearDisplay_cfg : (clearDisplay s).cfg = s.cfg := rfl

/-! ### traceEvent -/

@[simp] theorem traceEvent_v (e : IoEvent) : (s.traceEvent e).v = s.v := rfl
@[simp] theorem traceEvent_pc (e : IoEvent) : (s.traceEvent e).pc = s.pc := rfl
@[simp] theorem traceEvent_sp (e : IoEvent) : (s.traceEvent e).sp = s.sp := rfl
@[simp] theorem traceEvent_ireg (e : IoEvent) : (s.traceEvent e).ireg = s.ireg := rfl
@[simp] theorem traceEvent_time (e : IoEvent) : (s.traceEvent e).time = s.time := rfl
@[simp] theorem traceEvent_watchdog (e : IoEvent) : (s.traceEvent e).watchdog = s.watchdog := rfl
@[simp] theorem traceEvent_errors (e : IoEvent) : (s.traceEvent e).errors = s.errors := rfl
@[simp] theorem traceEvent_paused (e : IoEvent) : (s.traceEvent e).paused = s.paused := rfl
@[simp] theorem traceEvent_faulted (e : IoEvent) : (s.traceEvent e).faulted = s.faulted := rfl
@[simp] theorem traceEvent_dt (e : IoEvent) : (s.traceEvent e).dt = s.dt := rfl
@[simp] theorem traceEvent_st (e : IoEvent) : (s.traceEvent e).st = s.st := rfl
@[simp] theorem traceEvent_timerTime (e : IoEvent) : (s.traceEvent e).timerTime = s.timerTime := rfl
@[simp] theorem traceEvent_mem (e : IoEvent) : (s.traceEvent e).mem = s.mem := rfl
@[simp] theorem traceEvent_disp (e : IoEvent) : (s.traceEvent e).disp = s.disp := rfl
@[simp] theorem traceEvent_trace (e : IoEvent) : (s.traceEvent e).trace = s.trace ++ [e] := rfl
@[simp] theorem traceEvent_keyWait (e : IoEvent) : (s.traceEvent e).keyWait = s.keyWait := rfl
@[simp] theorem traceEvent_keys (e : IoEvent) : (s.traceEvent e).keys = s.keys := rfl
@[simp] theorem traceEvent_draws (e : IoEvent) : (s.traceEvent e).draws = s.draws := rfl
@[simp] theorem traceEvent_cfg (e : IoEvent) : (s.traceEvent e).cfg = s.cfg := rfl

/-! ### ioSync -/

@[simp] theorem ioSync_v (t : Time) : (ioSync t s).v = s.v := rfl
@[simp] theorem ioSync_pc (t : Time) : (ioSync t s).pc = s.pc := rfl
@[simp] theorem ioSync_sp (t : Time) : (ioSync t s).sp = s.sp := rfl
@[simp] theorem ioSync_ireg (t : Time) : (ioSync t s).ireg = s.ireg := rfl
@[simp] theorem ioSync_time (t : Time) : (ioSync t s).time = s.time := rfl
@[simp] theorem ioSync_watchdog (t : Time) : (ioSync t s).watchdog = s.watchdog := rfl
@[simp] theorem ioSync_errors (t : Time) : (ioSync t s).errors = s.errors := rfl
@[simp] theorem ioSync_paused (t : Time) : (ioSync t s).paused = s.paused := rfl
@[simp] theorem ioSync_faulted (t : Time) : (ioSync t s).faulted = s.faulted := rfl
@[simp] theorem ioSync_dt (t : Time) : (ioSync t s).dt = countDown s.dt (ticksSince s.cfg s.timerTime t) := rfl
@[simp] theorem ioSync_st (t : Time) : (ioSync t s).st = countDown s.st (ticksSince s.cfg s.timerTime t) := rfl
@[simp] theorem ioSync_timerTime (t : Time) : (ioSync t s).timerTime = t := rfl
@[simp] theorem ioSync_mem (t : Time) : (ioSync t s).mem = s.mem := rfl
@[simp] theorem ioSync_disp (t : Time) : (ioSync t s).disp = s.disp := rfl
@[simp] theorem ioSync_trace (t : Time) : (ioSync t s).trace = s.trace ++ [.sync t] := rfl
@[simp] theorem ioSync_keyWait (t : Time) : (ioSync t s).keyWait = s.keyWait := rfl
@[simp] theorem ioSync_keys (t : Time) : (ioSync t s).keys = s.keys := rfl
@[simp] theorem ioSync_draws (t : Time) : (ioSync t s).draws = s.draws := rfl
@[simp] theorem ioSync_cfg (t : Time) : (ioSync t s).cfg = s.cfg := rfl

/-! ### ioSetDelay -/

@[simp] theorem ioSetDelay_v (v : Byte) : (ioSetDelay v s).v = s.v := rfl
@[simp] theorem ioSetDelay_pc (v : Byte) : (ioSetDelay v s).pc = s.pc := rfl
@[simp] theorem ioSetDelay_sp (v : Byte) : (ioSetDelay v s).sp = s.sp := rfl
@[simp] theorem ioSetDelay_ireg (v : Byte) : (ioSetDelay v s).ireg = s.ireg := rfl
@[simp] theorem ioSetDelay_time (v : Byte) : (ioSetDelay v s).time = s.time := rfl
@[simp] theorem ioSetDelay_watchdog (v : Byte) : (ioSetDelay v s).watchdog = s.watchdog := rfl
@[simp] theorem ioSetDelay_errors (v : Byte) : (ioSetDelay v s).errors = s.errors := rfl
@[simp] theorem ioSetDelay_paused (v : Byte) : (ioSetDelay v s).paused = s.paused := rfl
@[simp] theorem ioSetDelay_faulted (v : Byte) : (ioSetDelay v s).faulted = s.faulted := rfl
@[simp] theorem ioSetDelay_dt (v : Byte) : (ioSetDelay v s).dt = v := rfl
@[simp] theorem ioSetDelay_st (v : Byte) : (ioSetDelay v s).st = s.st := rfl
@[simp] theorem ioSetDelay_timerTime (v : Byte) : (ioSetDelay v s).timerTime = s.timerTime := rfl
@[simp] theorem ioSetDelay_mem (v : Byte) : (ioSetDelay v s).mem = s.mem := rfl
@[simp] theorem ioSetDelay_disp (v : Byte) : (ioSetDelay v s).disp = s.disp := rfl
@[simp] theorem ioSetDelay_trace (v : Byte) : (ioSetDelay v s).trace = s.trace ++ [.setDelay v] := rfl
@[simp] theorem ioSetDelay_keyWait (v : Byte) : (ioSetDelay v s).keyWait = s.keyWait := rfl
@[simp] theorem ioSetDelay_keys (v : Byte) : (ioSetDelay v s).keys = s.keys := rfl
@[simp] theorem ioSetDelay_draws (v : Byte) : (ioSetDelay v s).draws = s.draws := rfl
@[simp] theorem ioSetDelay_cfg (v : Byte) : (ioSetDelay v s).cfg = s.cfg := rfl

/-! ### ioSetSound -/

@[simp] theorem ioSetSound_v (v : Byte) : (ioSetSound v s).v = s.v := rfl
@[simp] theorem ioSetSound_pc (v : Byte) : (ioSetSound v s).pc = s.pc := rfl
@[simp] theorem ioSetSound_sp (v : Byte) : (ioSetSound v s).sp = s.sp := rfl
@[simp] theorem ioSetSound_ireg (v : Byte) : (ioSetSound v s).ireg = s.ireg := rfl
@[simp] theorem ioSetSound_time (v : Byte) : (ioSetSound v s).time = s.time := rfl
@[simp] theorem ioSetSound_watchdog (v : Byte) : (ioSetSound v s).watchdog = s.watchdog := rfl
@[simp] theorem ioSetSound_errors (v : Byte) : (ioSetSound v s).errors = s.errors := rfl
@[simp] theorem ioSetSound_paused (v : Byte) : (ioSetSound v s).paused = s.paused := rfl
@[simp] theorem ioSetSound_faulted (v : Byte) : (ioSetSound v s).faulted = s.faulted := rfl
@[simp] theorem ioSetSound_dt (v : Byte) : (ioSetSound v s).dt = s.dt := rfl
@[simp] theorem ioSetSound_st (v : Byte) : (ioSetSound v s).st = v := rfl
@[simp] theorem ioSetSound_timerTime (v : Byte) : (ioSetSound v s).timerTime = s.timerTime := rfl
@[simp] theorem ioSetSound_mem (v : Byte) : (ioSetSound v s).mem = s.mem := rfl
@[simp] theorem ioSetSound_disp (v : Byte) : (ioSetSound v s).disp = s.disp := rfl
@[simp] theorem ioSetSound_trace (v : Byte) : (ioSetSound v s).trace = s.trace ++ [.setSound v] := rfl
@[simp] theorem ioSetSound_keyWait (v : Byte) : (ioSetSound v s).keyWait = s.keyWait := rfl
@[simp] theorem ioSetSound_keys (v : Byte) : (ioSetSound v s).keys = s.keys := rfl
@[simp] theorem ioSetSound_draws (v : Byte) : (ioSetSound v s).draws = s.draws := rfl
@[simp] theorem ioSetSound_cfg (v : Byte) : (ioSetSound v s).cfg = s.cfg := rfl

/-! ### ioGetDelay -/

@[simp] theorem ioGetDelay_v : (ioGetDelay s).v = s.v := rfl
@[simp] theorem ioGetDelay_pc : (ioGetDelay s).pc = s.pc := rfl
@[simp] theorem ioGetDelay_sp : (ioGetDelay s).sp = s.sp := rfl
@[simp] theorem ioGetDelay_ireg : (ioGetDelay s).ireg = s.ireg := rfl
@[simp] theorem ioGetDelay_time : (ioGetDelay s).time = s.time := rfl
@[simp] theorem ioGetDelay_watchdog : (ioGetDelay s).watchdog = s.watchdog := rfl
@[simp] theorem ioGetDelay_errors : (ioGetDelay s).errors = s.errors := rfl
@[simp] theorem ioGetDelay_paused : (ioGetDelay s).paused = s.paused := rfl
@[simp] theorem ioGetDelay_faulted : (ioGetDelay s).faulted = s.faulted := rfl
@[simp] theorem ioGetDelay_dt : (ioGetDelay s).dt = s.dt := rfl
@[simp] theorem ioGetDelay_st : (ioGetDelay s).st = s.st := rfl
@[simp] theorem ioGetDelay_timerTime : (ioGetDelay s).timerTime = s.timerTime := rfl
@[simp] theorem ioGetDelay_mem : (ioGetDelay s).mem = s.mem := rfl
@[simp] theorem ioGetDelay_disp : (ioGetDelay s).disp = s.disp := rfl
@[simp] theorem ioGetDelay_trace : (ioGetDelay s).trace = s.trace ++ [.getDelay s.dt] := rfl
@[simp] theorem ioGetDelay_keyWait : (ioGetDelay s).keyWait = s.keyWait := rfl
@[simp] theorem ioGetDelay_keys : (ioGetDelay s).keys = s.keys := rfl
@[simp] theorem ioGetDelay_draws : (ioGetDelay s).draws = s.draws := rfl
@[simp] theorem ioGetDelay_cfg : (ioGetDelay s).cfg = s.cfg := rfl

/-! ### ioIsKeyDown -/

@[simp] theorem ioIsKeyDown_v (k : Byte) : (ioIsKeyDown k s).v = s.v := rfl
@[simp] theorem ioIsKeyDown_pc (k : Byte) : (ioIsKeyDown k s).pc = s.pc := rfl
@[simp] theorem ioIsKeyDown_sp (k : Byte) : (ioIsKeyDown k s).sp = s.sp := rfl
@[simp] theorem ioIsKeyDown_ireg (k : Byte) : (ioIsKeyDown k s).ireg = s.ireg := rfl
@[simp] theorem ioIsKeyDown_time (k : Byte) : (ioIsKeyDown k s).time = s.time := rfl
@[simp] theorem ioIsKeyDown_watchdog (k : Byte) : (ioIsKeyDown k s).watchdog = s.watchdog := rfl
@[simp] theorem ioIsKeyDown_errors (k : Byte) : (ioIsKeyDown k s).errors = s.errors := rfl
@[simp] theorem ioIsKeyDown_paused (k : Byte) : (ioIsKeyDown k s).paused = s.paused := rfl
@[simp] theorem ioIsKeyDown_faulted (k : Byte) : (ioIsKeyDown k s).faulted = s.faulted := rfl
@[simp] theorem ioIsKeyDown_dt (k : Byte) : (ioIsKeyDown k s).dt = s.dt := rfl
@[simp] theorem ioIsKeyDown_st (k : Byte) : (ioIsKeyDown k s).st = s.st := rfl
@[simp] theorem ioIsKeyDown_timerTime (k : Byte) : (ioIsKeyDown k s).timerTime = s.timerTime := rfl
@[simp] theorem ioIsKeyDown_mem (k : Byte) : (ioIsKeyDown k s).mem = s.mem := rfl
@[simp] theorem ioIsKeyDown_disp (k : Byte) : (ioIsKeyDown k s).disp = s.disp := rfl
@[simp] theorem ioIsKeyDown_trace (k : Byte) :
    (ioIsKeyDown k s).trace = s.trace ++ [.isKeyDown k (s.keyDownDraw k)] := rfl
@[simp] theorem ioIsKeyDown_keyWait (k : Byte) : (ioIsKeyDown k s).keyWait = s.keyWait := rfl
@[simp] theorem ioIsKeyDown_keys (k : Byte) : (ioIsKeyDown k s).keys = s.keys := rfl
@[simp] theorem ioIsKeyDown_draws (k : Byte) : (ioIsKeyDown k s).draws = s.draws + 1 := rfl
@[simp] theorem ioIsKeyDown_cfg (k : Byte) : (ioIsKeyDown k s).cfg = s.cfg := rfl

/-! ### drawRandom -/

@[simp] theorem drawRandom_v : (drawRandom s).v = s.v := rfl
@[simp] theorem drawRandom_pc : (drawRandom s).pc = s.pc := rfl
@[simp] theorem drawRandom_sp : (drawRandom s).sp = s.sp := rfl
@[simp] theorem drawRandom_ireg : (drawRandom s).ireg = s.ireg := rfl
@[simp] theorem drawRandom_time : (drawRandom s).time = s.time := rfl
@[simp] theorem drawRandom_watchdog : (drawRandom s).watchdog = s.watchdog := rfl
@[simp] theorem drawRandom_errors : (drawRandom s).errors = s.errors := rfl
@[simp] theorem drawRandom_paused : (drawRandom s).paused = s.paused := rfl
@[simp] theorem drawRandom_faulted : (drawRandom s).faulted = s.faulted := rfl
@[simp] theorem drawRandom_dt : (drawRandom s).dt = s.dt := rfl
@[simp] theorem drawRandom_st : (drawRandom s).st = s.st := rfl
@[simp] theorem drawRandom_timerTime : (drawRandom s).timerTime = s.timerTime := rfl
@[simp] theorem drawRandom_mem : (drawRandom s).mem = s.mem := rfl
@[simp] theorem drawRandom_disp : (drawRandom s).disp = s.disp := rfl
@[simp] theorem drawRandom_trace : (drawRandom s).trace = s.trace := rfl
@[simp] theorem drawRandom_keyWait : (drawRandom s).keyWait = s.keyWait := rfl
@[simp] theorem drawRandom_keys : (drawRandom s).keys = s.keys := rfl
@[simp] theorem drawRandom_draws : (drawRandom s).draws = s.draws + 1 := rfl
@[simp] theorem drawRandom_cfg : (drawRandom s).cfg = s.cfg := rfl

end Sys2Proof.Machine
end

