-- ==== Sys2Proof/Laws/Registers.lean ====
section
/-! SUPPORT. Reading a register or a byte of memory after each named update, and the laws of a register write. -/

namespace Sys2Proof.Machine

variable (s : State)

/-! ### Reads through updates that do not touch what is read -/

@[simp] theorem setReg_byteAt (x : Reg) (b : Byte) (i : Nat) : (s.setReg x b).byteAt i = s.byteAt i := rfl
@[simp] theorem setByte_reg (a : Nat) (b : Byte) (y : Reg) : (s.setByte a b).reg y = s.reg y := rfl
@[simp] theorem advancePc_reg (y : Reg) : s.advancePc.reg y = s.reg y := rfl
@[simp] theorem advancePc_byteAt (i : Nat) : s.advancePc.byteAt i = s.byteAt i := rfl
@[simp] theorem takeEmulationFault_reg (y : Reg) : (takeEmulationFault s).reg y = s.reg y := rfl
@[simp] theorem takeEmulationFault_byteAt (i : Nat) : (takeEmulationFault s).byteAt i = s.byteAt i := rfl
@[simp] theorem clearDisplay_reg (y : Reg) : (clearDisplay s).reg y = s.reg y := rfl
@[simp] theorem clearDisplay_byteAt (i : Nat) : (clearDisplay s).byteAt i = s.byteAt i := rfl
@[simp] theorem traceEvent_reg (e : IoEvent) (y : Reg) : (s.traceEvent e).reg y = s.reg y := rfl
@[simp] theorem traceEvent_byteAt (e : IoEvent) (i : Nat) : (s.traceEvent e).byteAt i = s.byteAt i := rfl
@[simp] theorem ioSync_reg (t : Time) (y : Reg) : (ioSync t s).reg y = s.reg y := rfl
@[simp] theorem ioSync_byteAt (t : Time) (i : Nat) : (ioSync t s).byteAt i = s.byteAt i := rfl
@[simp] theorem ioSetDelay_reg (v : Byte) (y : Reg) : (ioSetDelay v s).reg y = s.reg y := rfl
@[simp] theorem ioSetDelay_byteAt (v : Byte) (i : Nat) : (ioSetDelay v s).byteAt i = s.byteAt i := rfl
@[simp] theorem ioSetSound_reg (v : Byte) (y : Reg) : (ioSetSound v s).reg y = s.reg y := rfl
@[simp] theorem ioSetSound_byteAt (v : Byte) (i : Nat) : (ioSetSound v s).byteAt i = s.byteAt i := rfl
@[simp] theorem ioGetDelay_reg (y : Reg) : (ioGetDelay s).reg y = s.reg y := rfl
@[simp] theorem ioGetDelay_byteAt (i : Nat) : (ioGetDelay s).byteAt i = s.byteAt i := rfl
@[simp] theorem ioIsKeyDown_reg (k : Byte) (y : Reg) : (ioIsKeyDown k s).reg y = s.reg y := rfl
@[simp] theorem ioIsKeyDown_byteAt (k : Byte) (i : Nat) : (ioIsKeyDown k s).byteAt i = s.byteAt i := rfl
@[simp] theorem drawRandom_reg (y : Reg) : (drawRandom s).reg y = s.reg y := rfl
@[simp] theorem drawRandom_byteAt (i : Nat) : (drawRandom s).byteAt i = s.byteAt i := rfl

/-! ### A register write -/

theorem setReg_reg (x y : Reg) (b : Byte) : (s.setReg x b).reg y = if y = x then b else s.reg y := by
  simp [State.reg, State.setReg, Vector.getElem_set, BitVec.toNat_eq, eq_comm]

@[simp] theorem setReg_reg_same (x : Reg) (b : Byte) : (s.setReg x b).reg x = b := by simp [setReg_reg]

theorem setReg_reg_ne {x y : Reg} (b : Byte) (h : y ≠ x) : (s.setReg x b).reg y = s.reg y := by
  simp [setReg_reg, h]

/-- The flag of a flag-writing operation is what `VF` reads (R141). -/
@[simp] theorem setRegFlag_vF (x : Reg) (b : Byte) (f : Bool) : (setRegFlag x b f s).reg vF = flagByte f := by
  simp [setRegFlag]

theorem setRegFlag_reg_dest {x : Reg} (b : Byte) (f : Bool) (h : x ≠ vF) : (setRegFlag x b f s).reg x = b := by
  simp [setRegFlag, setReg_reg, h]

theorem setRegFlag_reg_ne {x y : Reg} (b : Byte) (f : Bool) (hx : y ≠ x) (hf : y ≠ vF) :
    (setRegFlag x b f s).reg y = s.reg y := by
  simp [setRegFlag, setReg_reg, hx, hf]

/-- A flag-writing operation changes registers only. -/
theorem setRegFlag_eq (x : Reg) (b : Byte) (f : Bool) :
    setRegFlag x b f s = { s with v := (setRegFlag x b f s).v } := rfl

/-! ### Loading a run of registers (`Fx65`) -/

/-- `setRegsFrom` changes registers only. -/
theorem setRegsFrom_eq (bs : List Byte) (x : Reg) (s : State) :
    setRegsFrom x bs s = { s with v := (setRegsFrom x bs s).v } := by
  induction bs generalizing x s with
  | nil => rfl
  | cons b bs ih => rw [setRegsFrom, ih]; rfl

/-- What every register reads after `setRegsFrom`, for a run that does not wrap. -/
theorem setRegsFrom_reg (bs : List Byte) (x y : Reg) (s : State) (h : x.toNat + bs.length ≤ 16) :
    (setRegsFrom x bs s).reg y =
      if h : x.toNat ≤ y.toNat ∧ y.toNat < x.toNat + bs.length then bs[y.toNat - x.toNat]'(by omega) else s.reg y := by
  induction bs generalizing x s with
  | nil => simp [setRegsFrom]
  | cons b bs ih =>
    rw [setRegsFrom]
    simp only [List.length_cons] at h
    have hx := x.isLt
    have hy := y.isLt
    cases bs with
    | nil =>
      simp only [setRegsFrom, setReg_reg, List.length_nil, List.length_cons, BitVec.toNat_eq]
      by_cases hyx : y.toNat = x.toNat
      · simp [hyx]
      · rw [if_neg hyx, dif_neg (by omega)]
    | cons b' bs' =>
      simp only [List.length_cons] at h
      have h1 : (x + 1).toNat = x.toNat + 1 := by
        rw [BitVec.toNat_add]; simp; omega
      rw [ih _ _ (by simp only [List.length_cons, h1]; omega)]
      simp only [h1, setReg_reg, List.length_cons, BitVec.toNat_eq]
      by_cases hyx : y.toNat = x.toNat
      · rw [dif_neg (by omega), dif_pos (by omega), if_pos hyx]
        simp [hyx]
      · rw [if_neg hyx]
        by_cases hr : x.toNat + 1 ≤ y.toNat ∧ y.toNat < x.toNat + 1 + (bs'.length + 1)
        · rw [dif_pos hr, dif_pos (by omega)]
          have : y.toNat - x.toNat = (y.toNat - (x.toNat + 1)) + 1 := by omega
          simp [this]
        · rw [dif_neg hr, dif_neg (by omega)]

end Sys2Proof.Machine
end

