-- ==== Sys2Proof/Laws/Memory.lean ====
section
/-! SUPPORT. Main memory: read after write, every write leaves every other address alone, and every memory operation keeps
the canonical form. -/

namespace Sys2Proof.Machine

variable {c : Config}

theorem wfFrom_cons {lo k : Nat} {b : Byte} {m : Memory} :
    Memory.wfFrom c lo ((k, b) :: m) = true ↔
      lo ≤ k ∧ k < 4096 ∧ b ≠ resetByte c k ∧ Memory.wfFrom c (k + 1) m = true := by
  simp [Memory.wfFrom, and_assoc]

theorem wfFrom_mono {lo lo' : Nat} {m : Memory} (h : Memory.wfFrom c lo m = true) (hlo : lo' ≤ lo) :
    Memory.wfFrom c lo' m = true := by
  cases m with
  | nil => rfl
  | cons e m =>
    obtain ⟨k, b⟩ := e
    rw [wfFrom_cons] at h ⊢
    exact ⟨by omega, h.2⟩

/-- Below the first listed address everything reads as its reset contents. -/
theorem read_below {lo a : Nat} {m : Memory} (h : Memory.wfFrom c lo m = true) (ha : a < lo) :
    Memory.read c m a = resetByte c a := by
  induction m generalizing lo with
  | nil => rfl
  | cons e m ih =>
    obtain ⟨k, b⟩ := e
    rw [wfFrom_cons] at h
    rw [Memory.read, if_neg (by omega), ih h.2.2.2 (by omega)]

/-- A read after a write to the same address gives the byte written. -/
theorem read_write_same {lo a : Nat} {b : Byte} {m : Memory} (h : Memory.wfFrom c lo m = true) :
    Memory.read c (Memory.write c m a b) a = b := by
  induction m generalizing lo with
  | nil => by_cases hb : b = resetByte c a <;> simp [Memory.write, Memory.read, hb]
  | cons e m ih =>
    obtain ⟨k, e⟩ := e
    rw [wfFrom_cons] at h
    rw [Memory.write]
    split
    · split
      · rw [Memory.read, if_neg (by omega), read_below h.2.2.2 (by omega)]; exact .symm ‹_›
      · simp [Memory.read]
    · split
      · split
        · rw [read_below h.2.2.2 (by omega)]; exact .symm ‹_›
        · simp [Memory.read]
      · rw [Memory.read, if_neg ‹_›, ih h.2.2.2]

/-- A write leaves every other address alone. -/
theorem read_write_ne {a a' : Nat} {b : Byte} {m : Memory} (h : a' ≠ a) :
    Memory.read c (Memory.write c m a b) a' = Memory.read c m a' := by
  induction m with
  | nil => rw [Memory.write]; split <;> simp [Memory.read, h]
  | cons e m ih =>
    obtain ⟨k, e⟩ := e
    rw [Memory.write]
    split
    · split <;> simp [Memory.read, h]
    · split
      · rename_i hk
        split <;> simp [Memory.read, ← hk, h]
      · rw [Memory.read, Memory.read, ih]

/-- A write keeps the canonical form. -/
theorem write_wfFrom {lo a : Nat} {b : Byte} {m : Memory} (h : Memory.wfFrom c lo m = true) (hlo : lo ≤ a)
    (ha : a < 4096) : Memory.wfFrom c lo (Memory.write c m a b) = true := by
  induction m generalizing lo with
  | nil =>
    rw [Memory.write]
    split
    · rfl
    · rw [wfFrom_cons]; exact ⟨hlo, ha, ‹_›, rfl⟩
  | cons e m ih =>
    obtain ⟨k, e⟩ := e
    have h' := h
    rw [wfFrom_cons] at h'
    rw [Memory.write]
    split
    · split
      · exact h
      · rw [wfFrom_cons, wfFrom_cons]; exact ⟨hlo, ha, ‹_›, by omega, h'.2⟩
    · split
      · rename_i hk
        split
        · exact wfFrom_mono h'.2.2.2 (by omega)
        · rw [wfFrom_cons]; subst hk; exact ⟨hlo, ha, ‹_›, h'.2.2.2⟩
      · rw [wfFrom_cons]; exact ⟨h'.1, h'.2.1, h'.2.2.1, ih h'.2.2.2 (by omega)⟩

theorem write_wf {a : Nat} {b : Byte} {m : Memory} (h : Memory.wf c m = true) (ha : a < 4096) :
    Memory.wf c (Memory.write c m a b) = true := write_wfFrom h (Nat.zero_le a) ha

/-- A memory built from any cells is canonical. -/
theorem ofCells_wf (cells : List Host.Cell) : Memory.wf c (Memory.ofCells c cells) = true := by
  suffices h : ∀ m, Memory.wf c m = true →
      Memory.wf c (cells.foldl (fun m k => if k.1 < 4096 then Memory.write c m k.1 k.2 else m) m) = true from h [] rfl
  induction cells with
  | nil => exact fun m hm => hm
  | cons k ks ih =>
    intro m hm
    rw [List.foldl_cons]
    split
    · exact ih _ (write_wf hm ‹_›)
    · exact ih _ hm

/-! ### The state's memory -/

variable {s t : State}

theorem setByte_byteAt_same {a : Nat} (b : Byte) (h : Memory.wf s.cfg s.mem = true) : (s.setByte a b).byteAt a = b :=
  read_write_same h

theorem setByte_byteAt_ne {a i : Nat} (b : Byte) (h : i ≠ a) : (s.setByte a b).byteAt i = s.byteAt i :=
  read_write_ne h

theorem setByte_wf {a : Nat} (b : Byte) (h : Memory.wf s.cfg s.mem = true) (ha : a < 4096) :
    Memory.wf (s.setByte a b).cfg (s.setByte a b).mem = true := write_wf h ha

/-- Everything a checked byte write can do (R53). -/
theorem memWrite8_ok {a : Addr} {b : Byte} (h : memWrite8 s a b = .ok t) :
    a.toNat < 4096 ∧ t = s.setByte a.toNat b := by
  unfold memWrite8 at h
  split at h
  · exact ⟨‹_›, by cases h; rfl⟩
  · cases h

/-- Everything a checked 16-bit write can do (R53). -/
theorem memWrite16_ok {a : Addr} {w : Word} (h : memWrite16 s a w = .ok t) :
    a.toNat < 4095 ∧ t = (s.setByte a.toNat (highByte w)).setByte (a.toNat + 1) (lowByte w) := by
  unfold memWrite16 at h
  split at h
  · split at h
    · have h1 : (a + 1).toNat = a.toNat + 1 := by rw [BitVec.toNat_add]; simp; omega
      cases h
      exact ⟨by omega, by rw [h1]⟩
    · cases h
  · cases h

/-- Everything a checked byte read can do (R51). -/
theorem memRead8_ok {a : Addr} {b : Byte} (h : memRead8 s a = .ok b) : a.toNat < 4096 ∧ b = s.byteAt a.toNat := by
  unfold memRead8 at h
  split at h
  · exact ⟨‹_›, by cases h; rfl⟩
  · cases h

/-- Everything a checked 16-bit read can do (R52). -/
theorem memRead16_ok {a : Addr} {w : Word} (h : memRead16 s a = .ok w) :
    a.toNat < 4095 ∧ w = wordOfBytes (s.byteAt a.toNat) (s.byteAt (a.toNat + 1)) := by
  unfold memRead16 at h
  split at h
  · split at h
    · have h1 : (a + 1).toNat = a.toNat + 1 := by rw [BitVec.toNat_add]; simp; omega
      cases h
      exact ⟨by omega, by rw [h1]⟩
    · cases h
  · cases h

/-- A 16-bit write keeps the canonical form. -/
theorem memWrite16_wf {a : Addr} {w : Word} (hs : Memory.wf s.cfg s.mem = true) (h : memWrite16 s a w = .ok t) :
    Memory.wf t.cfg t.mem = true := by
  obtain ⟨ha, rfl⟩ := memWrite16_ok h
  exact setByte_wf _ (setByte_wf _ hs (by omega)) (by omega)

/-- A run of stored bytes changes memory only. -/
theorem storeBytes_eq {bs : List Byte} {a : Addr} (h : storeBytes bs a s = .ok t) : t = { s with mem := t.mem } := by
  induction bs generalizing a s with
  | nil => cases h; rfl
  | cons b bs ih =>
    rw [storeBytes] at h
    split at h
    · obtain ⟨-, hu⟩ := memWrite8_ok ‹_›
      rw [hu] at h
      have := ih h
      rw [this]; rfl
    · cases h

/-- A run of stored bytes keeps the canonical form. -/
theorem storeBytes_wf {bs : List Byte} {a : Addr} (hs : Memory.wf s.cfg s.mem = true)
    (h : storeBytes bs a s = .ok t) : Memory.wf t.cfg t.mem = true := by
  induction bs generalizing a s with
  | nil => cases h; exact hs
  | cons b bs ih =>
    rw [storeBytes] at h
    split at h
    · obtain ⟨ha, hu⟩ := memWrite8_ok ‹_›
      rw [hu] at h
      exact ih (setByte_wf _ hs ha) h
    · cases h

/-- The push keeps the canonical form. -/
theorem pushWord_wf {w : Word} (hs : Memory.wf s.cfg s.mem = true) (h : pushWord w s = .ok t) :
    Memory.wf t.cfg t.mem = true := by
  unfold pushWord at h
  split at h
  · have := memWrite16_wf hs ‹_›
    cases h
    exact this
  · cases h

end Sys2Proof.Machine
end

