-- ==== Sys2Proof/Laws/Ops.lean ====
section
/-! SUPPORT. One specification for each shared operation over runs of bytes, the stack, the blit unit, the timers and the
key wait: everything it can do. -/

namespace Sys2Proof.Machine

variable {s t : State}

/-! ### Addresses -/

theorem addr_succ {a : Addr} (h : a.toNat < 65535) : (a + 1).toNat = a.toNat + 1 := by
  rw [BitVec.toNat_add]; simp; omega

theorem addr_offset {a : Addr} {k : Nat} (h : a.toNat + k < 65536) :
    (a + BitVec.ofNat 16 k).toNat = a.toNat + k := by
  rw [BitVec.toNat_add, BitVec.toNat_ofNat]; omega

/-- Outside a run of bytes that fits, said with plain numbers. -/
theorem outside_of_fits {a : Addr} {n b : Nat} (hf : a.toNat + n ≤ 4096) :
    (∀ k, k < n → b ≠ (a + BitVec.ofNat 16 k).toNat) ↔ b < a.toNat ∨ a.toNat + n ≤ b := by
  constructor
  · intro h
    by_contra hc
    have hk : b - a.toNat < n := by omega
    have := h _ hk
    rw [addr_offset (by omega)] at this
    omega
  · intro h k hk
    rw [addr_offset (by omega)]
    omega

/-! ### Single accesses that fit, and those that do not -/

theorem memRead16_fits {a : Addr} (h : Fits a 2) :
    memRead16 s a = .ok (wordOfBytes (s.byteAt a.toNat) (s.byteAt (a.toNat + 1))) := by
  unfold Fits at h
  have h1 := addr_succ (a := a) (by omega)
  rw [memRead16, if_pos (by omega), h1, if_pos (by omega)]

theorem memRead16_outside {a : Addr} (h : ¬ Fits a 2) : memRead16 s a = .error (firstOutside a) := by
  unfold Fits at h
  unfold memRead16 firstOutside
  split
  · have h1 := addr_succ (a := a) (by omega)
    rw [if_neg (by omega)]
    congr 1
    apply BitVec.eq_of_toNat_eq
    rw [h1]; simp; omega
  · rfl

theorem memWrite16_fits {a : Addr} {w : Word} (h : Fits a 2) :
    memWrite16 s a w = .ok ((s.setByte a.toNat (highByte w)).setByte (a.toNat + 1) (lowByte w)) := by
  unfold Fits at h
  have h1 := addr_succ (a := a) (by omega)
  rw [memWrite16, if_pos (by omega), h1, if_pos (by omega)]

theorem memWrite16_outside {a : Addr} {w : Word} (h : ¬ Fits a 2) :
    memWrite16 s a w = .error (firstOutside a) := by
  unfold Fits at h
  unfold memWrite16 firstOutside
  split
  · have h1 := addr_succ (a := a) (by omega)
    rw [if_neg (by omega)]
    congr 1
    apply BitVec.eq_of_toNat_eq
    rw [h1]; simp; omega
  · rfl

/-! ### Runs of bytes -/

/-- A run of reads that fits answers the bytes. -/
theorem loadBytes_fits {n : Nat} {a : Addr} (h : n = 0 ∨ Fits a n) :
    loadBytes s n a = .ok ((List.range n).map fun k => s.byteAt (a.toNat + k)) := by
  unfold Fits at h
  induction n generalizing a with
  | zero => rfl
  | succ n ih =>
    rw [loadBytes, memRead8, if_pos (by omega)]
    by_cases hn : n = 0
    · subst hn; rfl
    · have h1 := addr_succ (a := a) (by omega)
      rw [ih (a := a + 1) (by omega), h1]
      simp only [List.range_succ_eq_map, List.map_cons, List.map_map, Nat.add_zero]
      congr 2
      apply List.map_congr_left
      intro k _
      simp only [Function.comp, Nat.succ_eq_add_one]
      congr 1
      omega

/-- A run of reads that does not fit answers its first address outside memory. -/
theorem loadBytes_outside {n : Nat} {a : Addr} (hn : n ≠ 0) (h : ¬ Fits a n) :
    loadBytes s n a = .error (firstOutside a) := by
  unfold Fits at h
  induction n generalizing a with
  | zero => exact absurd rfl hn
  | succ n ih =>
    rw [loadBytes, memRead8]
    unfold firstOutside
    by_cases ha : a.toNat < 4096
    · rw [if_pos ha, if_pos ha]
      have h1 := addr_succ (a := a) (by omega)
      rw [ih (a := a + 1) (by omega) (by omega)]
      unfold firstOutside
      by_cases h4 : (a + 1).toNat < 4096
      · rw [if_pos h4]
      · rw [if_neg h4]
        simp only [Except.error.injEq]
        apply BitVec.eq_of_toNat_eq
        rw [h1]; simp; omega
    · rw [if_neg ha, if_neg ha]

/-- Everything a run of reads can answer. -/
theorem loadBytes_ok {n : Nat} {a : Addr} {bs : List Byte} (h : loadBytes s n a = .ok bs) :
    (n = 0 ∨ Fits a n) ∧ bs = (List.range n).map fun k => s.byteAt (a.toNat + k) := by
  by_cases hf : n = 0 ∨ Fits a n
  · rw [loadBytes_fits hf] at h; cases h; exact ⟨hf, rfl⟩
  · rw [loadBytes_outside (by tauto) (by tauto)] at h; cases h

/-- A run of writes that does not fit answers its first address outside memory. -/
theorem storeBytes_outside {bs : List Byte} {a : Addr} (hn : bs ≠ []) (h : ¬ Fits a bs.length) :
    storeBytes bs a s = .error (firstOutside a) := by
  unfold Fits at h
  induction bs generalizing a s with
  | nil => exact absurd rfl hn
  | cons b bs ih =>
    rw [storeBytes, memWrite8]
    simp only [List.length_cons] at h
    unfold firstOutside
    by_cases ha : a.toNat < 4096
    · rw [if_pos ha, if_pos ha]
      have h1 := addr_succ (a := a) (by omega)
      have hb : bs ≠ [] := by rintro rfl; simp at h; omega
      simp only
      rw [ih (a := a + 1) hb (by omega)]
      unfold firstOutside
      by_cases h4 : (a + 1).toNat < 4096
      · rw [if_pos h4]
      · rw [if_neg h4]
        simp only [Except.error.injEq]
        apply BitVec.eq_of_toNat_eq
        rw [h1]; simp; omega
    · rw [if_neg ha, if_neg ha]

/-- A run of writes that fits completes. -/
theorem storeBytes_fits {bs : List Byte} {a : Addr} (h : bs = [] ∨ Fits a bs.length) :
    ∃ t, storeBytes bs a s = .ok t := by
  unfold Fits at h
  induction bs generalizing a s with
  | nil => exact ⟨s, rfl⟩
  | cons b bs ih =>
    simp only [List.length_cons, reduceCtorEq, false_or] at h
    rw [storeBytes, memWrite8, if_pos (by omega)]
    by_cases hb : bs = []
    · subst hb; exact ⟨_, rfl⟩
    · have hl : 0 < bs.length := List.length_pos_iff.mpr hb
      have h1 := addr_succ (a := a) (by omega)
      exact ih (a := a + 1) (.inr (by omega))

/-- Everything a run of writes can answer: it fits, outside it nothing changes, and its bytes read back. -/
theorem storeBytes_ok {bs : List Byte} {a : Addr} (h : storeBytes bs a s = .ok t) :
    (bs = [] ∨ Fits a bs.length) ∧ t = { s with mem := t.mem } ∧
    (∀ i, i < a.toNat ∨ a.toNat + bs.length ≤ i → t.byteAt i = s.byteAt i) ∧
    (MemoryOk s → ∀ (k : Nat) (hk : k < bs.length), t.byteAt (a.toNat + k) = bs[k]) := by
  have hf : bs = [] ∨ Fits a bs.length := by
    by_contra hc
    rw [storeBytes_outside (by tauto) (by tauto)] at h
    cases h
  refine ⟨hf, storeBytes_eq h, ?_, ?_⟩
  · unfold Fits at hf
    induction bs generalizing a s with
    | nil => intro i _; cases h; rfl
    | cons b bs ih =>
      intro i hi
      simp only [List.length_cons, reduceCtorEq, false_or] at hf hi
      rw [storeBytes, memWrite8, if_pos (by omega)] at h
      by_cases hb : bs = []
      · subst hb; cases h
        exact setByte_byteAt_ne b (by simp only [List.length_nil] at hi; omega)
      · have hl : 0 < bs.length := List.length_pos_iff.mpr hb
        have h1 := addr_succ (a := a) (by omega)
        rw [ih h (.inr (by omega)) i (by omega), setByte_byteAt_ne b (by omega)]
  · unfold Fits at hf
    unfold MemoryOk
    induction bs generalizing a s with
    | nil => intro _ k hk; exact absurd hk (by simp)
    | cons b bs ih =>
      intro hs k hk
      simp only [List.length_cons, reduceCtorEq, false_or] at hf hk
      rw [storeBytes, memWrite8, if_pos (by omega)] at h
      have hwf := setByte_wf (a := a.toNat) b hs (by omega)
      by_cases hb : bs = []
      · subst hb; cases h
        simp only [List.length_nil] at hk
        obtain rfl : k = 0 := by omega
        exact setByte_byteAt_same b hs
      · have hl : 0 < bs.length := List.length_pos_iff.mpr hb
        have h1 := addr_succ (a := a) (by omega)
        cases k with
        | zero =>
          have hout : ∀ {u v : State} {cs : List Byte} {p : Addr}, storeBytes cs p u = .ok v →
              p.toNat + cs.length ≤ 4096 → ∀ i, i < p.toNat → v.byteAt i = u.byteAt i := by
            intro u v cs
            induction cs generalizing u v with
            | nil => intro p hc _ i _; cases hc; rfl
            | cons c cs ihc =>
              intro p hc hp i hi
              simp only [List.length_cons] at hp
              rw [storeBytes, memWrite8, if_pos (by omega)] at hc
              have hq : (p + 1).toNat = p.toNat + 1 := addr_succ (by omega)
              by_cases hcs : cs = []
              · subst hcs; cases hc; exact setByte_byteAt_ne c (by omega)
              · have : 0 < cs.length := List.length_pos_iff.mpr hcs
                rw [ihc hc (by omega) i (by omega), setByte_byteAt_ne c (by omega)]
          rw [hout h (by omega) _ (by omega)]
          exact setByte_byteAt_same b hs
        | succ k =>
          have := ih h (.inr (by omega)) hwf k (by omega)
          rw [h1, Nat.add_assoc, Nat.add_comm 1 k] at this
          simpa using this

/-! ### The stack -/

theorem popToPc_fits (h : Fits (s.sp - 2) 2) :
    popToPc s = .ok { s with
      sp := s.sp - 2
      pc := wordOfBytes (s.byteAt (s.sp - 2).toNat) (s.byteAt ((s.sp - 2).toNat + 1)) } := by
  rw [popToPc, memRead16_fits h]

theorem popToPc_outside (h : ¬ Fits (s.sp - 2) 2) : popToPc s = .error (firstOutside (s.sp - 2)) := by
  rw [popToPc, memRead16_outside h]

theorem pushWord_fits {w : Word} (h : Fits s.sp 2) :
    pushWord w s = .ok { s with
      mem := ((s.setByte s.sp.toNat (highByte w)).setByte (s.sp.toNat + 1) (lowByte w)).mem
      sp := s.sp + 2 } := by
  rw [pushWord, memWrite16_fits h]; rfl

theorem pushWord_outside {w : Word} (h : ¬ Fits s.sp 2) : pushWord w s = .error (firstOutside s.sp) := by
  rw [pushWord, memWrite16_outside h]

/-- The stack pointer stays even through a push and a pop (R26). -/
theorem even_add_two {a : Addr} : (a + 2).getLsbD 0 = a.getLsbD 0 := by
  simp only [BitVec.getLsbD, BitVec.toNat_add, Nat.testBit_zero]
  congr 1; simp

theorem even_sub_two {a : Addr} : (a - 2).getLsbD 0 = a.getLsbD 0 := by
  conv_rhs => rw [show a = (a - 2) + 2 by simp]
  exact even_add_two.symm

/-! ### The blit unit -/

/-- What each row reads after a run of blits that stays on the display (R192, R195). -/
theorem blitRows_row {x : Nat} {bs : List Byte} {y : Nat} {d : Vector RowWord 32} (h : y + bs.length ≤ 32)
    (r : Fin 32) : (blitRows x y bs d).1[r] =
      if hr : y ≤ r.val ∧ r.val < y + bs.length then d[r] ^^^ blitMask x (bs[r.val - y]'(by omega)) else d[r] := by
  induction bs generalizing y d with
  | nil => simp [blitRows]
  | cons b bs ih =>
    simp only [List.length_cons] at h
    simp only [blitRows]
    rw [ih (by omega)]
    have hy : y < 32 := by omega
    simp only [blit, dif_pos hy, List.length_cons, Fin.getElem_fin, Vector.getElem_set]
    by_cases h1 : r.val = y
    · rw [dif_neg (by omega), dif_pos (by omega)]
      simp [h1]
    · rw [if_neg (by omega)]
      by_cases h2 : y + 1 ≤ r.val ∧ r.val < y + 1 + bs.length
      · rw [dif_pos h2, dif_pos (by omega)]
        have : r.val - y = (r.val - (y + 1)) + 1 := by omega
        simp [this]
      · rw [dif_neg h2, dif_neg (by omega)]

/-- The collision of a run of blits that stays on the display: some row met a lit pixel of its mask. -/
theorem blitRows_collision {x : Nat} {bs : List Byte} {y : Nat} {d : Vector RowWord 32} (h : y + bs.length ≤ 32) :
    (blitRows x y bs d).2 = true ↔
      ∃ (r : Fin 32) (hr : y ≤ r.val ∧ r.val < y + bs.length),
        d[r] &&& blitMask x (bs[r.val - y]'(by omega)) ≠ 0 := by
  induction bs generalizing y d with
  | nil => simp [blitRows]
  | cons b bs ih =>
    simp only [List.length_cons] at h
    have hy : y < 32 := by omega
    simp only [blitRows, Bool.or_eq_true]
    rw [ih (by omega)]
    simp only [blit, dif_pos hy, List.length_cons, bne_iff_ne, ne_eq]
    constructor
    · rintro (h1 | ⟨r, hr, h2⟩)
      · exact ⟨⟨y, hy⟩, by simp, by simpa using h1⟩
      · refine ⟨r, by omega, ?_⟩
        have : r.val - y = (r.val - (y + 1)) + 1 := by omega
        simp only [Fin.getElem_fin, Vector.getElem_set] at h2
        rw [if_neg (by omega)] at h2
        simpa [this] using h2
    · rintro ⟨r, hr, h2⟩
      by_cases h1 : r.val = y
      · left
        have : r = ⟨y, hy⟩ := Fin.ext h1
        subst this
        simpa using h2
      · right
        refine ⟨r, by omega, ?_⟩
        have : r.val - y = (r.val - (y + 1)) + 1 := by omega
        simp only [Fin.getElem_fin, Vector.getElem_set]
        rw [if_neg (by omega)]
        simpa [this] using h2

/-- The start column and row of a sprite as remainders (R195). -/
theorem drawColumn_eq (b : Byte) : drawColumn b = b.toNat % 64 := by
  rw [drawColumn, BitVec.toNat_and]; exact Nat.and_two_pow_sub_one_eq_mod _ 6

theorem drawRow_eq (b : Byte) : drawRow b = b.toNat % 32 := by
  rw [drawRow, BitVec.toNat_and]; exact Nat.and_two_pow_sub_one_eq_mod _ 5

/-! ### Skips -/

/-- A skip changes `pc` only. -/
theorem skipIf_eq (c : Bool) (s : State) : skipIf c s = { s with pc := if c then s.pc + 2 else s.pc } := by
  cases c <;> rfl

/-! ### Timers and the key wait -/

theorem countDown_toNat (b : Byte) (n : Nat) : (countDown b n).toNat = b.toNat - n := by
  have := b.isLt
  rw [countDown, BitVec.toNat_ofNat]
  omega

/-- `IoSync` changes the timer unit and the trace only. -/
theorem ioSync_eq (c : Time) (s : State) :
    ioSync c s = { s with
      dt := (ioSync c s).dt, st := (ioSync c s).st, timerTime := c, trace := s.trace ++ [.sync c] } := rfl

/-- `IoNextKey` without an answer waits (R39). -/
theorem awaitKey_nil {x : Reg} {s : State} (h : s.keys = []) : awaitKey x s = { s with keyWait := some x } := by
  simp [awaitKey, h]

/-- `IoNextKey` with an answer takes it (R214). -/
theorem awaitKey_cons {x : Reg} {s : State} {k : Byte} {ks : List Byte} (h : s.keys = k :: ks) :
    awaitKey x s = ({ s with keys := ks, keyWait := none, trace := s.trace ++ [.nextKey k] } : State).setReg x k := by
  simp [awaitKey, h]

/-- Everything `IoNextKey` can do: take an answer, or wait. -/
theorem awaitKey_cases (x : Reg) (s : State) :
    (s.keys = [] ∧ awaitKey x s = { s with keyWait := some x }) ∨
    ∃ k rest, s.keys = k :: rest ∧
      awaitKey x s = ({ s with keys := rest, keyWait := none, trace := s.trace ++ [.nextKey k] } : State).setReg x k := by
  rcases h : s.keys with _ | ⟨k, rest⟩
  · exact .inl ⟨rfl, by rw [awaitKey_nil h, h]⟩
  · exact .inr ⟨k, rest, rfl, awaitKey_cons h⟩

end Sys2Proof.Machine
end

