-- ==== Sys2Proof/Laws/Step.lean ====
section
/-! SUPPORT. What a step can do, said once: the inversion of `step`, the three ways an instruction ends, and what no
instruction touches. -/

namespace Sys2Proof.Machine

variable {s t : State}

/-! ### Sp parity, memory and the engine's registers through one instruction -/

/-- What every instruction keeps when it answers a next state: the parameters, `time`, `watchdog`, `errors`, `faulted`,
the canonical form of memory and the parity of `sp`. -/
structure Kept (s t : State) : Prop where
  cfg : t.cfg = s.cfg
  time : t.time = s.time
  watchdog : t.watchdog = s.watchdog
  errors : t.errors = s.errors
  faulted : t.faulted = s.faulted
  memory : MemoryOk s → MemoryOk t
  even : t.sp.getLsbD 0 = s.sp.getLsbD 0

theorem Kept.refl (s : State) : Kept s s := ⟨rfl, rfl, rfl, rfl, rfl, id, rfl⟩

theorem Kept.trans {u : State} (h : Kept s t) (k : Kept t u) : Kept s u :=
  ⟨k.cfg.trans h.cfg, k.time.trans h.time, k.watchdog.trans h.watchdog, k.errors.trans h.errors,
    k.faulted.trans h.faulted, fun m => k.memory (h.memory m), k.even.trans h.even⟩

theorem kept_setReg (x : Reg) (b : Byte) (s : State) : Kept s (s.setReg x b) := ⟨rfl, rfl, rfl, rfl, rfl, id, rfl⟩

theorem kept_setRegFlag (x : Reg) (b : Byte) (f : Bool) (s : State) : Kept s (setRegFlag x b f s) :=
  ⟨rfl, rfl, rfl, rfl, rfl, id, rfl⟩

theorem kept_skipIf (c : Bool) (s : State) : Kept s (skipIf c s) := by
  cases c <;> exact ⟨rfl, rfl, rfl, rfl, rfl, id, rfl⟩

theorem kept_ioSync (c : Time) (s : State) : Kept s (ioSync c s) := ⟨rfl, rfl, rfl, rfl, rfl, id, rfl⟩

theorem kept_ioIsKeyDown (k : Byte) (s : State) : Kept s (ioIsKeyDown k s) :=
  ⟨rfl, rfl, rfl, rfl, rfl, id, rfl⟩

theorem kept_setRegsFrom (x : Reg) (bs : List Byte) (s : State) : Kept s (setRegsFrom x bs s) := by
  rw [setRegsFrom_eq]; exact ⟨rfl, rfl, rfl, rfl, rfl, id, rfl⟩

theorem kept_awaitKey (x : Reg) (s : State) : Kept s (awaitKey x s) := by
  obtain ⟨-, h⟩ | ⟨k, rest, -, h⟩ := awaitKey_cases x s <;> rw [h] <;> exact ⟨rfl, rfl, rfl, rfl, rfl, id, rfl⟩

theorem kept_storeBytes {bs : List Byte} {a : Addr} (h : storeBytes bs a s = .ok t) : Kept s t := by
  have e := storeBytes_eq h
  refine ⟨?_, ?_, ?_, ?_, ?_, fun m => storeBytes_wf m h, ?_⟩ <;> rw [e]

theorem kept_popToPc (h : popToPc s = .ok t) : Kept s t := by
  by_cases hf : Fits (s.sp - 2) 2
  · rw [popToPc_fits hf] at h; cases h
    exact ⟨rfl, rfl, rfl, rfl, rfl, id, even_sub_two⟩
  · rw [popToPc_outside hf] at h; cases h

theorem kept_pushWord {w : Word} (h : pushWord w s = .ok t) : Kept s t := by
  by_cases hf : Fits s.sp 2
  · have hm := fun m => pushWord_wf (t := t) m h
    rw [pushWord_fits hf] at h; cases h
    exact ⟨rfl, rfl, rfl, rfl, rfl, hm, even_add_two⟩
  · rw [pushWord_outside hf] at h; cases h

/-- Everything an instruction that answers a next state keeps. -/
theorem exec_kept {i : Instr} (h : exec i s = .next t) : Kept s t := by
  cases i <;> simp only [exec] at h
  case cls => cases h; exact ⟨rfl, rfl, rfl, rfl, rfl, id, rfl⟩
  case ret =>
    unfold execRet orMemoryFault at h
    split at h
    · cases h; exact kept_popToPc ‹_›
    · cases h
  case jp => cases h; exact ⟨rfl, rfl, rfl, rfl, rfl, id, rfl⟩
  case call =>
    unfold execCall at h
    split at h
    · cases h
      have k := kept_pushWord ‹_›
      exact ⟨k.cfg, k.time, k.watchdog, k.errors, k.faulted, k.memory, k.even⟩
    · cases h
  case seImm => cases h; exact kept_skipIf _ _
  case sneImm => cases h; exact kept_skipIf _ _
  case seReg => cases h; exact kept_skipIf _ _
  case ldImm => cases h; exact kept_setReg _ _ _
  case addImm => cases h; exact kept_setReg _ _ _
  case ldReg => cases h; exact kept_setReg _ _ _
  case orReg => cases h; exact kept_setReg _ _ _
  case andReg => cases h; exact kept_setReg _ _ _
  case xorReg => cases h; exact kept_setReg _ _ _
  case addReg => cases h; exact kept_setRegFlag _ _ _ _
  case subReg => cases h; exact kept_setRegFlag _ _ _ _
  case shr => cases h; exact kept_setRegFlag _ _ _ _
  case subn => cases h; exact kept_setRegFlag _ _ _ _
  case shl => cases h; exact kept_setRegFlag _ _ _ _
  case sneReg => cases h; exact kept_skipIf _ _
  case ldI => cases h; exact ⟨rfl, rfl, rfl, rfl, rfl, id, rfl⟩
  case jpV0 => cases h; exact ⟨rfl, rfl, rfl, rfl, rfl, id, rfl⟩
  case rnd => cases h; exact ⟨rfl, rfl, rfl, rfl, rfl, id, rfl⟩
  case drw =>
    unfold execDrw at h
    split at h
    · cases h; exact ⟨rfl, rfl, rfl, rfl, rfl, id, rfl⟩
    · cases h
  case skp => cases h; exact ((kept_ioSync _ _).trans (kept_ioIsKeyDown _ _)).trans (kept_skipIf _ _)
  case sknp => cases h; exact ((kept_ioSync _ _).trans (kept_ioIsKeyDown _ _)).trans (kept_skipIf _ _)
  case ldVxDt => cases h; exact ⟨rfl, rfl, rfl, rfl, rfl, id, rfl⟩
  case ldVxK => cases h; exact (kept_ioSync _ _).trans (kept_awaitKey _ _)
  case ldDtVx => cases h; exact ⟨rfl, rfl, rfl, rfl, rfl, id, rfl⟩
  case ldStVx => cases h; exact ⟨rfl, rfl, rfl, rfl, rfl, id, rfl⟩
  case addI => cases h; exact ⟨rfl, rfl, rfl, rfl, rfl, id, rfl⟩
  case ldF => cases h; exact ⟨rfl, rfl, rfl, rfl, rfl, id, rfl⟩
  case ldB =>
    unfold execLdB orMemoryFault at h
    split at h
    · cases h; exact kept_storeBytes ‹_›
    · cases h
  case storeRegs =>
    unfold execStoreRegs orMemoryFault at h
    split at h
    · cases h; exact kept_storeBytes ‹_›
    · cases h
  case loadRegs =>
    unfold execLoadRegs at h
    split at h
    · cases h; exact kept_setRegsFrom _ _ _
    · cases h

/-! ### The fetch -/

theorem fetch_ok {w : Word} (h : fetch s = .ok w) :
    s.pc.toNat < 0x0FFF ∧ w = wordOfBytes (s.byteAt s.pc.toNat) (s.byteAt (s.pc.toNat + 1)) := memRead16_ok h

theorem fetch_fits (h : s.pc.toNat < 0x0FFF) :
    fetch s = .ok (wordOfBytes (s.byteAt s.pc.toNat) (s.byteAt (s.pc.toNat + 1))) :=
  memRead16_fits (by unfold Fits; omega)

theorem fetch_outside (h : 0x0FFF ≤ s.pc.toNat) : fetch s = .error (firstOutside s.pc) :=
  memRead16_outside (by unfold Fits; omega)

/-! ### The step -/

theorem step_faulted (h : s.faulted = true) : step s = .refused .engineFaulted := by simp [step, h]

theorem step_waiting {x : Reg} (hf : s.faulted = false) (hk : s.keyWait = some x) :
    step s = .next (resumeKeyWait x s) := by simp [step, hf, hk]

theorem step_fetchFault {a : Addr} (h : Ready s) (hw : fetch s = .error a) :
    step s = .fault (.memoryFault a) := by simp [step, h.1, h.2, hw]

theorem step_instr {w : Word} {i : Instr} (h : Ready s) (hw : fetch s = .ok w) (hi : decodeWord w = .ok i) :
    step s = accrueOutcome (costOf s.cfg i) (exec i s.advancePc) := by simp [step, h.1, h.2, hw, hi]

theorem step_unrecognised {w : Word} {e : Reject} (h : Ready s) (hw : fetch s = .ok w)
    (hi : decodeWord w = .error e) : step s = .next (unrecognisedWord s.advancePc) := by
  simp [step, h.1, h.2, hw, hi]

/-- An unrecognised word, spelled out (R232). -/
theorem unrecognisedWord_eq (h : s.keyWait = none) :
    unrecognisedWord s = { s with errors := s.errors + 1, time := s.time + s.cfg.costFault } := by
  simp [unrecognisedWord, accrue, takeEmulationFault, h]

theorem accrue_none {c : Time} (h : s.keyWait = none) : accrue c s = { s with time := s.time + c } := by
  simp [accrue, h]

theorem accrue_some {c : Time} {x : Reg} (h : s.keyWait = some x) : accrue c s = s := by simp [accrue, h]

/-- Accruing a cost changes `time` only. -/
theorem accrue_eq (c : Time) (s : State) : accrue c s = { s with time := (accrue c s).time } := by
  unfold accrue; split <;> rfl

theorem accrueOutcome_next {c : Time} {r : Result} (h : accrueOutcome c r = .next t) :
    ∃ u, r = .next u ∧ t = accrue c u := by
  cases r with
  | next u => cases h; exact ⟨u, rfl, rfl⟩
  | fault f => cases h
  | refused f => cases h

/-- Everything a step that answers a next state can have done. -/
theorem step_next_cases (h : step s = .next t) :
    s.faulted = false ∧
    ((∃ x, s.keyWait = some x ∧ t = resumeKeyWait x s) ∨
     (s.keyWait = none ∧ ∃ w, fetch s = .ok w ∧
      ((∃ i u, decodeWord w = .ok i ∧ exec i s.advancePc = .next u ∧ t = accrue (costOf s.cfg i) u) ∨
       (∃ e, decodeWord w = .error e ∧ t = unrecognisedWord s.advancePc)))) := by
  unfold step at h
  split at h
  · cases h
  · refine ⟨by simp_all, ?_⟩
    split at h
    · cases h; exact .inl ⟨_, ‹_›, rfl⟩
    · right
      refine ⟨‹_›, ?_⟩
      split at h
      · cases h
      · refine ⟨_, ‹_›, ?_⟩
        split at h
        · obtain ⟨u, hu, rfl⟩ := accrueOutcome_next h
          exact .inl ⟨_, u, ‹_›, hu, rfl⟩
        · cases h; exact .inr ⟨_, ‹_›, rfl⟩

/-- No instruction is refused. -/
theorem exec_not_refused (i : Instr) (s : State) (r : Refusal) : exec i s ≠ .refused r := by
  have h : ∀ e : Except Addr State, orMemoryFault e ≠ .refused r := fun e => by cases e <;> exact nofun
  cases i
  case ret => exact h _
  case ldB => exact h _
  case storeRegs => exact h _
  case call => simp only [exec, execCall]; split <;> exact nofun
  case drw => simp only [exec, execDrw]; split <;> exact nofun
  case loadRegs => simp only [exec, execLoadRegs]; split <;> exact nofun
  all_goals exact nofun

/-- No step of an engine that is not faulted is refused. -/
theorem step_not_refused (hf : s.faulted = false) (r : Refusal) : step s ≠ .refused r := by
  unfold step
  rw [hf, if_neg (by decide)]
  split
  · exact nofun
  · split
    · exact nofun
    · split
      · intro h
        cases hi : exec _ s.advancePc with
        | next u => rw [hi] at h; cases h
        | fault f => rw [hi] at h; cases h
        | refused q => exact exec_not_refused _ _ _ hi
      · exact nofun

/-- Only `Fx0A` begins a key wait, and only when the environment has given no answer. -/
theorem exec_keyWait {i : Instr} (h : exec i s = .next t) :
    t.keyWait = s.keyWait ∨ (t.keyWait = none ∧ ∃ x, i = .ldVxK x) ∨
      (t.keys = [] ∧ ∃ x, i = .ldVxK x ∧ t.keyWait = some x) := by
  cases i <;> simp only [exec] at h
  case ret =>
    unfold execRet orMemoryFault at h
    split at h
    · cases h
      by_cases hf : Fits (s.sp - 2) 2
      · have h2 : popToPc s = .ok t := ‹_›
        rw [popToPc_fits hf] at h2; cases h2; exact .inl rfl
      · have h2 : popToPc s = .ok t := ‹_›
        rw [popToPc_outside hf] at h2; cases h2
    · cases h
  case call =>
    unfold execCall at h
    split at h
    · rename_i u h2
      cases h
      by_cases hf : Fits s.sp 2
      · rw [pushWord_fits hf] at h2; cases h2; exact .inl rfl
      · rw [pushWord_outside hf] at h2; cases h2
    · cases h
  case ldB =>
    unfold execLdB orMemoryFault at h
    split at h
    · rename_i h2
      cases h; rw [storeBytes_eq h2]; exact .inl rfl
    · cases h
  case storeRegs =>
    unfold execStoreRegs orMemoryFault at h
    split at h
    · rename_i h2
      cases h; rw [storeBytes_eq h2]; exact .inl rfl
    · cases h
  case loadRegs =>
    unfold execLoadRegs at h
    split at h
    · cases h; rw [setRegsFrom_eq]; exact .inl rfl
    · cases h
  case drw =>
    unfold execDrw at h
    split at h
    · cases h; exact .inl rfl
    · cases h
  case ldVxK x =>
    cases h
    obtain ⟨hk, h⟩ | ⟨k, ks, -, h⟩ := awaitKey_cases x (ioSync s.time s)
    · rw [h]; exact .inr (.inr ⟨hk, x, rfl, rfl⟩)
    · rw [h]; exact .inr (.inl ⟨rfl, x, rfl⟩)
  case seImm => cases h; rw [skipIf_eq]; exact .inl rfl
  case sneImm => cases h; rw [skipIf_eq]; exact .inl rfl
  case seReg => cases h; rw [skipIf_eq]; exact .inl rfl
  case sneReg => cases h; rw [skipIf_eq]; exact .inl rfl
  case skp => cases h; rw [skipIf_eq]; exact .inl rfl
  case sknp => cases h; rw [skipIf_eq]; exact .inl rfl
  all_goals cases h; exact .inl rfl

end Sys2Proof.Machine
end

