-- ==== Sys2Proof/Laws/Commands.lean ====
section
/-! SUPPORT. What the operations of the host's commands do: loading a ROM, the faulted state, the end of a run. -/

namespace Sys2Proof.Machine

variable {s : State}

/-- The gate of every command, open and shut (R110). -/
theorem commandInProgress_none (h : s.keyWait = none) : commandInProgress s = false := by simp [commandInProgress, h]

theorem commandInProgress_some {x : Reg} (h : s.keyWait = some x) : commandInProgress s = true := by
  simp [commandInProgress, h]

/-- Everything one step within a command can come to, by the outcome of the step. -/
theorem engineStep_done {t : State} (h : step s = .next t) (hk : t.keyWait = none) : engineStep s = .done t := by
  simp [engineStep, h, hk]

theorem engineStep_blocked {t : State} {x : Reg} (h : step s = .next t) (hk : t.keyWait = some x) :
    engineStep s = .blocked t := by simp [engineStep, h, hk]

theorem engineStep_fault {f : Fault} (h : step s = .fault f) : engineStep s = .done (afterMemoryFault s) := by
  simp [engineStep, h]

theorem engineStep_refused {r : Refusal} (h : step s = .refused r) : engineStep s = .done s := by simp [engineStep, h]

/-- Everything `writeRom` does to a memory in canonical form, for bytes that fit (R62). -/
theorem writeRom_spec (bs : List Byte) (a : Nat) (s : State) (hl : a + bs.length ≤ 4096) (hm : MemoryOk s) :
    MemoryOk (writeRom a bs s) ∧ writeRom a bs s = { s with mem := (writeRom a bs s).mem } ∧
    (∀ (k : Nat) (hk : k < bs.length), (writeRom a bs s).byteAt (a + k) = bs[k]) ∧
    (∀ i, i < a ∨ a + bs.length ≤ i → (writeRom a bs s).byteAt i = s.byteAt i) := by
  induction bs generalizing a s with
  | nil => exact ⟨hm, rfl, by simp, fun _ _ => rfl⟩
  | cons b bs ih =>
    simp only [List.length_cons] at hl
    obtain ⟨h1, h2, h3, h4⟩ := ih (a + 1) (s.setByte a b) (by omega) (setByte_wf b hm (by omega))
    simp only [writeRom]
    refine ⟨h1, by rw [h2]; rfl, fun k hk => ?_, fun i hi => ?_⟩
    · cases k with
      | zero => rw [h4 _ (by omega)]; exact setByte_byteAt_same b hm
      | succ k =>
        have := h3 k (by simpa using hk)
        rw [List.getElem_cons_succ, ← this]; congr 1; omega
    · simp only [List.length_cons] at hi
      rw [h4 i (by omega), setByte_byteAt_ne _ (by omega)]

/-- What is certain of the state after a `MemoryFault` (R234). -/
theorem afterMemoryFault_spec (s : State) : (afterMemoryFault s).faulted = true ∧
    (afterMemoryFault s).time = s.time ∧ (afterMemoryFault s).errors = s.errors ∧
    (afterMemoryFault s).trace = s.trace ∧ (afterMemoryFault s).watchdog = s.watchdog ∧
    (afterMemoryFault s).cfg = s.cfg := by
  unfold afterMemoryFault; split <;> exact ⟨rfl, rfl, rfl, rfl, rfl, rfl⟩

/-- The memory of a faulted engine is canonical, whatever it holds. -/
theorem afterMemoryFault_memory (h : MemoryOk s) : MemoryOk (afterMemoryFault s) := by
  unfold afterMemoryFault; split
  · exact h
  · exact ofCells_wf _

/-- The end of a run changes the timers and the trace only (R106). -/
theorem finishRun_time (s : State) : (finishRun s).time = s.time := by unfold finishRun; split <;> rfl

/-- A run whose loop test fails at once is over, however many steps are allowed. -/
theorem runLoop_stop (n : Nat) (h : runGoesOn s = false) : runLoop n s = .done (finishRun s) := by
  cases n <;> simp [runLoop, h]

end Sys2Proof.Machine
end

