-- ==== Sys2Proof/Laws/PerInstr.lean ====
section
/-! SUPPORT. Statements for all instructions, made per instruction. `TableRow`: the word of an instruction matches the row of
the opcode map that the instruction stands for (R86). -/

namespace Sys2Proof.Laws.TableRow

/-- The encoding of `i` has the fixed bits of its row. -/
def Statement (i : Instr) : Prop := i.opcodeRow.matches (encode i) = true

theorem cls : Statement .cls := by rfl

theorem ret : Statement .ret := by rfl

theorem jp (nnn : Addr12) : Statement (.jp nnn) := by
  show (encode (.jp nnn) &&& 0xF000 == 0x1000) = true
  rw [encode, and_F000, fieldType_formatA]; rfl

theorem call (nnn : Addr12) : Statement (.call nnn) := by
  show (encode (.call nnn) &&& 0xF000 == 0x2000) = true
  rw [encode, and_F000, fieldType_formatA]; rfl

theorem seImm (x : Reg) (kk : Imm8) : Statement (.seImm x kk) := by
  show (encode (.seImm x kk) &&& 0xF000 == 0x3000) = true
  rw [encode, and_F000, fieldType_formatI]; rfl

theorem sneImm (x : Reg) (kk : Imm8) : Statement (.sneImm x kk) := by
  show (encode (.sneImm x kk) &&& 0xF000 == 0x4000) = true
  rw [encode, and_F000, fieldType_formatI]; rfl

theorem seReg (x : Reg) (y : Reg) : Statement (.seReg x y) := by
  show (encode (.seReg x y) &&& 0xF00F == 0x5000) = true
  rw [encode, and_F00F, fieldType_formatR, fieldImm4_formatR]; rfl

theorem ldImm (x : Reg) (kk : Imm8) : Statement (.ldImm x kk) := by
  show (encode (.ldImm x kk) &&& 0xF000 == 0x6000) = true
  rw [encode, and_F000, fieldType_formatI]; rfl

theorem addImm (x : Reg) (kk : Imm8) : Statement (.addImm x kk) := by
  show (encode (.addImm x kk) &&& 0xF000 == 0x7000) = true
  rw [encode, and_F000, fieldType_formatI]; rfl

theorem ldReg (x : Reg) (y : Reg) : Statement (.ldReg x y) := by
  show (encode (.ldReg x y) &&& 0xF00F == 0x8000) = true
  rw [encode, and_F00F, fieldType_formatR, fieldImm4_formatR]; rfl

theorem orReg (x : Reg) (y : Reg) : Statement (.orReg x y) := by
  show (encode (.orReg x y) &&& 0xF00F == 0x8001) = true
  rw [encode, and_F00F, fieldType_formatR, fieldImm4_formatR]; rfl

theorem andReg (x : Reg) (y : Reg) : Statement (.andReg x y) := by
  show (encode (.andReg x y) &&& 0xF00F == 0x8002) = true
  rw [encode, and_F00F, fieldType_formatR, fieldImm4_formatR]; rfl

theorem xorReg (x : Reg) (y : Reg) : Statement (.xorReg x y) := by
  show (encode (.xorReg x y) &&& 0xF00F == 0x8003) = true
  rw [encode, and_F00F, fieldType_formatR, fieldImm4_formatR]; rfl

theorem addReg (x : Reg) (y : Reg) : Statement (.addReg x y) := by
  show (encode (.addReg x y) &&& 0xF00F == 0x8004) = true
  rw [encode, and_F00F, fieldType_formatR, fieldImm4_formatR]; rfl

theorem subReg (x : Reg) (y : Reg) : Statement (.subReg x y) := by
  show (encode (.subReg x y) &&& 0xF00F == 0x8005) = true
  rw [encode, and_F00F, fieldType_formatR, fieldImm4_formatR]; rfl

theorem shr (x : Reg) (y : Reg) : Statement (.shr x y) := by
  show (encode (.shr x y) &&& 0xF00F == 0x8006) = true
  rw [encode, and_F00F, fieldType_formatR, fieldImm4_formatR]; rfl

theorem subn (x : Reg) (y : Reg) : Statement (.subn x y) := by
  show (encode (.subn x y) &&& 0xF00F == 0x8007) = true
  rw [encode, and_F00F, fieldType_formatR, fieldImm4_formatR]; rfl

theorem shl (x : Reg) (y : Reg) : Statement (.shl x y) := by
  show (encode (.shl x y) &&& 0xF00F == 0x800E) = true
  rw [encode, and_F00F, fieldType_formatR, fieldImm4_formatR]; rfl

theorem sneReg (x : Reg) (y : Reg) : Statement (.sneReg x y) := by
  show (encode (.sneReg x y) &&& 0xF00F == 0x9000) = true
  rw [encode, and_F00F, fieldType_formatR, fieldImm4_formatR]; rfl

theorem ldI (nnn : Addr12) : Statement (.ldI nnn) := by
  show (encode (.ldI nnn) &&& 0xF000 == 0xA000) = true
  rw [encode, and_F000, fieldType_formatA]; rfl

theorem jpV0 (nnn : Addr12) : Statement (.jpV0 nnn) := by
  show (encode (.jpV0 nnn) &&& 0xF000 == 0xB000) = true
  rw [encode, and_F000, fieldType_formatA]; rfl

theorem rnd (x : Reg) (kk : Imm8) : Statement (.rnd x kk) := by
  show (encode (.rnd x kk) &&& 0xF000 == 0xC000) = true
  rw [encode, and_F000, fieldType_formatI]; rfl

theorem drw (x : Reg) (y : Reg) (n : Imm4) : Statement (.drw x y n) := by
  show (encode (.drw x y n) &&& 0xF000 == 0xD000) = true
  rw [encode, and_F000, fieldType_formatR]; rfl

theorem skp (x : Reg) : Statement (.skp x) := by
  show (encode (.skp x) &&& 0xF0FF == 0xE09E) = true
  rw [encode, and_F0FF, fieldType_formatI, fieldY_formatI, fieldImm4_formatI]; rfl

theorem sknp (x : Reg) : Statement (.sknp x) := by
  show (encode (.sknp x) &&& 0xF0FF == 0xE0A1) = true
  rw [encode, and_F0FF, fieldType_formatI, fieldY_formatI, fieldImm4_formatI]; rfl

theorem ldVxDt (x : Reg) : Statement (.ldVxDt x) := by
  show (encode (.ldVxDt x) &&& 0xF0FF == 0xF007) = true
  rw [encode, and_F0FF, fieldType_formatI, fieldY_formatI, fieldImm4_formatI]; rfl

theorem ldVxK (x : Reg) : Statement (.ldVxK x) := by
  show (encode (.ldVxK x) &&& 0xF0FF == 0xF00A) = true
  rw [encode, and_F0FF, fieldType_formatI, fieldY_formatI, fieldImm4_formatI]; rfl

theorem ldDtVx (x : Reg) : Statement (.ldDtVx x) := by
  show (encode (.ldDtVx x) &&& 0xF0FF == 0xF015) = true
  rw [encode, and_F0FF, fieldType_formatI, fieldY_formatI, fieldImm4_formatI]; rfl

theorem ldStVx (x : Reg) : Statement (.ldStVx x) := by
  show (encode (.ldStVx x) &&& 0xF0FF == 0xF018) = true
  rw [encode, and_F0FF, fieldType_formatI, fieldY_formatI, fieldImm4_formatI]; rfl

theorem addI (x : Reg) : Statement (.addI x) := by
  show (encode (.addI x) &&& 0xF0FF == 0xF01E) = true
  rw [encode, and_F0FF, fieldType_formatI, fieldY_formatI, fieldImm4_formatI]; rfl

theorem ldF (x : Reg) : Statement (.ldF x) := by
  show (encode (.ldF x) &&& 0xF0FF == 0xF029) = true
  rw [encode, and_F0FF, fieldType_formatI, fieldY_formatI, fieldImm4_formatI]; rfl

theorem ldB (x : Reg) : Statement (.ldB x) := by
  show (encode (.ldB x) &&& 0xF0FF == 0xF033) = true
  rw [encode, and_F0FF, fieldType_formatI, fieldY_formatI, fieldImm4_formatI]; rfl

theorem storeRegs (x : Reg) : Statement (.storeRegs x) := by
  show (encode (.storeRegs x) &&& 0xF0FF == 0xF055) = true
  rw [encode, and_F0FF, fieldType_formatI, fieldY_formatI, fieldImm4_formatI]; rfl

theorem loadRegs (x : Reg) : Statement (.loadRegs x) := by
  show (encode (.loadRegs x) &&& 0xF0FF == 0xF065) = true
  rw [encode, and_F0FF, fieldType_formatI, fieldY_formatI, fieldImm4_formatI]; rfl

end Sys2Proof.Laws.TableRow
end

