-- ==== Sys2Proof/Tests/Slice0.lean ====
section
/-! SUPPORT. The model's own tests: the checks of `WellFormed` refuse an ill-formed term each; one word written out bit by bit
from R86 for each instruction; single steps on the vectors of `spec/95_test_vectors.md` (a test's comment names the
vector, or the rule a value was worked out from by hand); and a witness for the hypotheses of every obligation. -/

namespace Sys2Proof.Tests

open Sys2Proof Sys2Proof.Machine

/-! ### Helpers -/

/-- The next state of an outcome, if it is one. -/
def nextOf : Result → Option State
  | .next t => some t
  | _ => none

/-- The reset state with some registers set. -/
def withRegs (l : List (Reg × Byte)) : State := l.foldl (fun s p => s.setReg p.1 p.2) State.reset

/-- A state with some bytes of memory set. -/
def withBytes (l : List (Nat × Byte)) (s : State) : State := l.foldl (fun s p => s.setByte p.1 p.2) s

/-- The fault of an outcome, if it is one. -/
def faultOf : Result → Option Fault
  | .fault f => some f
  | _ => none

/-- What is seen of the state after one step on the word `w`. -/
def after {α : Type} (s : State) (w : Nat) (see : State → α) : Option α := (nextOf (step (s.withFetchWord 16 w))).map see

/-- The fault of one step on the word `w`. -/
def faultAfter (s : State) (w : Nat) : Option Fault := faultOf (step (s.withFetchWord 16 w))

/-- The register, and `VF`. -/
def seeReg (x : Reg) (s : State) : Byte × Byte := (s.reg x, s.reg 15)

/-- The three bytes from an address up. -/
def see3 (a : Nat) (s : State) : Byte × Byte × Byte := (s.byteAt a, s.byteAt (a + 1), s.byteAt (a + 2))

/-! ### Ill-formed terms are refused (R5, R62, R87) -/

theorem test_wf_reference : Config.reference.wellFormed = true := by decide
theorem test_wf_font : { Config.reference with fontBase := 0x1B1 }.wellFormed = false := by decide
theorem test_wf_font_fits : { Config.reference with fontBase := 0x1B0 }.wellFormed = true := by decide
theorem test_wf_stack : { Config.reference with spReset := 0x051 }.wellFormed = false := by decide
theorem test_wf_cost : { Config.reference with cost := Config.reference.cost.set 33 0 }.wellFormed = false := by decide
theorem test_wf_faultCost : { Config.reference with costFault := 0 }.wellFormed = false := by decide
theorem test_wf_tick : { Config.reference with tickPeriod := 0 }.wellFormed = false := by decide
theorem test_wf_rom : romFits (List.replicate 3585 0) = false := by
  rw [romFits, List.length_replicate]; decide
theorem test_wf_rom_fits : romFits (List.replicate 3584 0) = true := by
  rw [romFits, List.length_replicate]; decide
theorem test_wf_word_ef0 : wordRecognised 0x0123 = false := by decide
theorem test_wf_word_ef5 : wordRecognised 0x5121 = false := by decide
theorem test_wf_word_ef8 : wordRecognised 0x8128 = false := by decide
theorem test_wf_word_ef9 : wordRecognised 0x912F = false := by decide
theorem test_wf_word_efE : wordRecognised 0xE100 = false := by decide
theorem test_wf_word_efF : wordRecognised 0xF1FF = false := by decide

/-! ### One word of each instruction, bit by bit from R86 -/

theorem test_decode_cls : decodeWord 0b0000000011100000 = .ok .cls := by decide
theorem test_decode_ret : decodeWord 0b0000000011101110 = .ok .ret := by decide
theorem test_decode_jp : decodeWord 0b0001001000000100 = .ok (.jp 0x204) := by decide
theorem test_decode_call : decodeWord 0b0010001000001100 = .ok (.call 0x20C) := by decide
theorem test_decode_seImm : decodeWord 0b0011000100000010 = .ok (.seImm 1 2) := by decide
theorem test_decode_sneImm : decodeWord 0b0100001000010001 = .ok (.sneImm 2 0x11) := by decide
theorem test_decode_seReg : decodeWord 0b0101000100100000 = .ok (.seReg 1 2) := by decide
theorem test_decode_ldImm : decodeWord 0b0110101000101011 = .ok (.ldImm 10 0x2B) := by decide
theorem test_decode_addImm : decodeWord 0b0111000111111111 = .ok (.addImm 1 0xFF) := by decide
theorem test_decode_ldReg : decodeWord 0b1000101011110000 = .ok (.ldReg 10 15) := by decide
theorem test_decode_orReg : decodeWord 0b1000000100100001 = .ok (.orReg 1 2) := by decide
theorem test_decode_andReg : decodeWord 0b1000000100100010 = .ok (.andReg 1 2) := by decide
theorem test_decode_xorReg : decodeWord 0b1000000100100011 = .ok (.xorReg 1 2) := by decide
theorem test_decode_addReg : decodeWord 0b1000000100100100 = .ok (.addReg 1 2) := by decide
theorem test_decode_subReg : decodeWord 0b1000000100100101 = .ok (.subReg 1 2) := by decide
theorem test_decode_shr : decodeWord 0b1000000100100110 = .ok (.shr 1 2) := by decide
theorem test_decode_subn : decodeWord 0b1000000100100111 = .ok (.subn 1 2) := by decide
theorem test_decode_shl : decodeWord 0b1000000100101110 = .ok (.shl 1 2) := by decide
theorem test_decode_sneReg : decodeWord 0b1001000000110000 = .ok (.sneReg 0 3) := by decide
theorem test_decode_ldI : decodeWord 0b1010001100000001 = .ok (.ldI 0x301) := by decide
theorem test_decode_jpV0 : decodeWord 0b1011001100000001 = .ok (.jpV0 0x301) := by decide
theorem test_decode_rnd : decodeWord 0b1100001100001111 = .ok (.rnd 3 0x0F) := by decide
theorem test_decode_drw : decodeWord 0b1101000100100101 = .ok (.drw 1 2 5) := by decide
theorem test_decode_skp : decodeWord 0b1110001110011110 = .ok (.skp 3) := by decide
theorem test_decode_sknp : decodeWord 0b1110001110100001 = .ok (.sknp 3) := by decide
theorem test_decode_ldVxDt : decodeWord 0b1111000100000111 = .ok (.ldVxDt 1) := by decide
theorem test_decode_ldVxK : decodeWord 0b1111010000001010 = .ok (.ldVxK 4) := by decide
theorem test_decode_ldDtVx : decodeWord 0b1111010100010101 = .ok (.ldDtVx 5) := by decide
theorem test_decode_ldStVx : decodeWord 0b1111010100011000 = .ok (.ldStVx 5) := by decide
theorem test_decode_addI : decodeWord 0b1111001000011110 = .ok (.addI 2) := by decide
theorem test_decode_ldF : decodeWord 0b1111001000101001 = .ok (.ldF 2) := by decide
theorem test_decode_ldB : decodeWord 0b1111001000110011 = .ok (.ldB 2) := by decide
theorem test_decode_storeRegs : decodeWord 0b1111001001010101 = .ok (.storeRegs 2) := by decide
theorem test_decode_loadRegs : decodeWord 0b1111001001100101 = .ok (.loadRegs 2) := by decide

/-- The big-endian layout (R70): the bytes of the word in the wrong order are another instruction. -/
theorem test_decode_bytes : decode [0xD1, 0x25] = .ok (.drw 1 2 5, []) := by decide
theorem test_decode_short : decode [0xD1] = .error .truncated := by decide
theorem test_tableWord : decodeTableWord 16 0xF033 = some (.ldB 0) := by decide

/-! ### Single steps -/

-- F3
theorem test_jp : after { State.reset with pc := 0x212 } 0x1213 (fun t => (t.pc, t.paused)) = some (0x213, false) := by
  decide
-- F2, R103
theorem test_jp_self : after { State.reset with pc := 0x212 } 0x1212 (fun t => (t.pc, t.paused, t.time)) = some (0x212, true, 1) := by
  decide
-- F4
theorem test_call : after { State.reset with pc := 0x202 } 0x220C (fun t => (t.byteAt 0x50, t.byteAt 0x51, t.sp, t.pc)) =
    some (0x02, 0x04, 0x052, 0x20C) := by
  decide
-- F8
theorem test_call_fault : faultAfter { State.reset with pc := 0x300, sp := 0x0FFF } 0x2400 = some (.memoryFault 0x1000) := by
  decide
-- F5
theorem test_ret : after (withBytes [(0x50, 0x02), (0x51, 0x04)] { State.reset with sp := 0x52 }) 0x00EE (fun t => (t.sp, t.pc)) =
    some (0x50, 0x204) := by
  decide
-- F7
theorem test_ret_fault : faultAfter { State.reset with sp := 0 } 0x00EE = some (.memoryFault 0xFFFE) := by
  decide
-- F22
theorem test_seImm : after (withRegs [(15, 1)]) 0x3F01 State.pc = some 0x204 := by
  decide
-- F10, at 0x200
theorem test_seImm_not : after (withRegs [(1, 1)]) 0x3100 State.pc = some 0x202 := by
  decide
-- F11
theorem test_sneImm : after (withRegs [(2, 0x10)]) 0x4211 State.pc = some 0x204 := by
  decide
-- F12
theorem test_sneImm_not : after (withRegs [(2, 0x10)]) 0x4210 State.pc = some 0x202 := by
  decide
-- F13
theorem test_seReg : after (withRegs [(1, 0x33), (2, 0x33)]) 0x5120 State.pc = some 0x204 := by
  decide
-- F15
theorem test_seReg_bad : after (withRegs [(1, 0x33), (2, 0x33)]) 0x5121 (fun t => (t.pc, t.errors, t.time)) = some (0x202, 1, 1) := by
  decide
-- F16
theorem test_sneReg : after (withRegs [(0, 1), (3, 2)]) 0x9030 State.pc = some 0x204 := by
  decide
-- F17
theorem test_sneReg_same : after State.reset 0x9440 State.pc = some 0x202 := by
  decide
-- F20
theorem test_jpV0 : after (withRegs [(0, 0xFF)]) 0xBFFF State.pc = some 0x10FE := by
  decide
-- F21
theorem test_jpV0_self : after State.reset 0xB200 (fun t => (t.pc, t.paused)) = some (0x200, false) := by
  decide
-- A2
theorem test_ldImm : after State.reset 0x6F07 (seeReg 15) = some (0x07, 0x07) := by
  decide
-- A4
theorem test_addImm : after (withRegs [(1, 0xFF)]) 0x7101 (seeReg 1) = some (0x00, 0x00) := by
  decide
-- A6
theorem test_ldReg : after (withRegs [(15, 1)]) 0x8AF0 (seeReg 10) = some (0x01, 0x01) := by
  decide
-- A7
theorem test_orReg : after (withRegs [(1, 0xF0), (2, 0x0F), (15, 1)]) 0x8121 (seeReg 1) = some (0xFF, 0x01) := by
  decide
-- A8
theorem test_andReg : after (withRegs [(1, 0xF0), (2, 0x3C)]) 0x8122 (seeReg 1) = some (0x30, 0x00) := by
  decide
-- A9
theorem test_xorReg : after (withRegs [(1, 0xFF), (2, 0x0F)]) 0x8123 (seeReg 1) = some (0xF0, 0x00) := by
  decide
-- V2
theorem test_addReg : after (withRegs [(1, 0xFF), (2, 0xFF)]) 0x8124 (seeReg 1) = some (0xFE, 0x01) := by
  decide
-- A14
theorem test_addReg_vF : after (withRegs [(1, 0x02), (15, 0x01)]) 0x8F14 (seeReg 15) = some (0x00, 0x00) := by
  decide
-- A16
theorem test_subReg : after (withRegs [(1, 0x01), (2, 0x10)]) 0x8125 (seeReg 1) = some (0xF1, 0x00) := by
  decide
-- A17
theorem test_subReg_equal : after (withRegs [(1, 0x07), (2, 0x07)]) 0x8125 (seeReg 1) = some (0x00, 0x01) := by
  decide
-- A20
theorem test_subn : after (withRegs [(1, 0x01), (2, 0x10)]) 0x8127 (seeReg 1) = some (0x0F, 0x01) := by
  decide
-- A22
theorem test_subn_equal : after (withRegs [(1, 0x07), (2, 0x07)]) 0x8127 (seeReg 1) = some (0x00, 0x00) := by
  decide
-- A23
theorem test_shr : after (withRegs [(1, 0x55), (2, 0xAA)]) 0x8126 (fun t => (t.reg 1, t.reg 2, t.reg 15)) = some (0x2A, 0xAA, 0x01) := by
  decide
-- A27
theorem test_shr_vF : after (withRegs [(15, 0x02)]) 0x8F06 (seeReg 15) = some (0x00, 0x00) := by
  decide
-- A29
theorem test_shl : after (withRegs [(1, 0x8C), (2, 0x01)]) 0x812E (fun t => (t.reg 1, t.reg 2, t.reg 15)) = some (0x18, 0x01, 0x01) := by
  decide
-- A31
theorem test_shl_vF : after (withRegs [(15, 0x81)]) 0x8F0E (seeReg 15) = some (0x01, 0x01) := by
  decide
-- M2
theorem test_ldI : after State.reset 0xAFFF State.ireg = some 0x0FFF := by
  decide
-- M5
theorem test_addI : after ({ withRegs [(2, 0x02)] with ireg := 0xFFFF }) 0xF21E State.ireg = some 0x0001 := by
  decide
-- M9
theorem test_ldF : after (withRegs [(0, 0x1A)]) 0xF029 State.ireg = some 0x0032 := by
  decide
-- M8
theorem test_ldF_last : after (withRegs [(0, 0x0F)]) 0xF029 State.ireg = some 0x004B := by
  decide
-- M13
theorem test_ldB : after ({ withRegs [(0, 0x7B)] with ireg := 0x300 }) 0xF033 (see3 0x300) = some (1, 2, 3) := by
  decide
-- M14
theorem test_ldB_fault : faultAfter ({ withRegs [(0, 0x01)] with ireg := 0x0FFE }) 0xF033 = some (.memoryFault 0x1000) := by
  decide
-- M15
theorem test_storeRegs : after ({ withRegs [(0, 0x02), (1, 0x8C), (2, 0x77)] with ireg := 0x300 }) 0xF155 (fun t => (see3 0x300 t, t.ireg)) =
    some ((0x02, 0x8C, 0x00), 0x300) := by
  decide
-- M18
theorem test_storeRegs_fault : faultAfter ({ withRegs [(0, 0x11), (1, 0x22)] with ireg := 0x0FFF }) 0xF155 = some (.memoryFault 0x1000) := by
  decide
-- M22
theorem test_loadRegs : after State.reset 0xF465 (fun t => (t.reg 0, t.reg 1, t.reg 4, t.reg 5, t.ireg)) =
    some (0xF0, 0x90, 0xF0, 0x00, 0x0000) := by
  decide
-- M21
theorem test_loadRegs_fault : faultAfter { State.reset with ireg := 0x1000 } 0xF065 = some (.memoryFault 0x1000) := by
  decide
-- D1
theorem test_cls : after { withRegs [(15, 1)] with disp := Vector.replicate 32 5 } 0x00E0 (fun t => (t.disp, t.reg 15)) =
    some (Vector.replicate 32 0, 1) := by
  decide
-- D2
theorem test_drw : after (withBytes [(0x208, 0x81)] { withRegs [(0, 0x42), (1, 0x24)] with ireg := 0x208 }) 0xD011
    (fun t => (t.disp[4], t.disp[5], t.reg 15)) = some (0x2040000000000000, 0, 0x00) := by
  decide
-- D4
theorem test_drw_clip : after (withBytes [(0xFFF, 0x80)] { withRegs [(1, 0x1F)] with ireg := 0x0FFF }) 0xD012
    (fun t => (t.disp[31], t.disp[0], t.reg 15)) = some (0x8000000000000000, 0, 0x00) := by
  decide
-- B9
theorem test_blit : blit 60 3 0xF1 ((Vector.replicate 32 0).set 3 0x0000000000000001) =
    ((Vector.replicate 32 0).set 3 0x000000000000000E, true) := by decide
-- B10
theorem test_blit_dropped : blit 60 3 0xE1 ((Vector.replicate 32 0).set 3 0x0000000000000001) =
    ((Vector.replicate 32 0).set 3 0x000000000000000F, false) := by decide
-- K9
theorem test_ldVxDt : after { State.reset with dt := 3, timerTime := 5, time := 8 } 0xF107
    (fun t => (t.reg 1, t.dt, t.timerTime, t.trace)) = some (2, 2, 8, [.sync 8, .getDelay 2]) := by
  decide
-- K11
theorem test_ldVxDt_saturates : after { State.reset with dt := 1, st := 9, time := 41 } 0xF107 (fun t => (t.reg 1, t.dt, t.st)) = some (0, 0, 4) := by
  decide
-- K6
theorem test_ldVxK : after { State.reset with keys := [0xBB] } 0xF40A (fun t => (t.reg 4, t.pc, t.time, t.trace)) =
    some (0xBB, 0x202, 1, [.sync 0, .nextKey 187]) := by
  decide
-- K7
theorem test_ldVxK_waits : after State.reset 0xF40A (fun t => (t.reg 4, t.keyWait, t.time, t.trace)) = some (0, some 4, 0, [.sync 0]) := by
  decide
-- K15
theorem test_ldDtVx : after { withRegs [(0, 0x09)] with dt := 5, timerTime := 7, time := 8 } 0xF015
    (fun t => (t.dt, t.trace)) = some (9, [.sync 8, .setDelay 9]) := by
  decide
-- K13
theorem test_ldStVx : after (withRegs [(5, 0x10)]) 0xF518 (fun t => (t.st, soundOn t, t.dt, t.trace)) =
    some (16, true, 0, [.sync 0, .setSound 16]) := by
  decide
-- K1, K2: the answer is a free value, the trace event and the skip follow it
theorem test_skp : (nextOf (exec (.skp 3) { withRegs [(3, 5)] with time := 1 })).map State.trace =
    some [.sync 1, .isKeyDown 5 (Config.isKeyDown 0 5)] := by
  show some (State.trace (skipIf _ _)) = _
  unfold skipIf; split <;> rfl
-- K3, K4
theorem test_sknp : (nextOf (exec (.sknp 3) { withRegs [(3, 5)] with time := 1 })).map State.pc =
    some (if Config.isKeyDown 0 5 then 0x200 else 0x202) := by
  show some (State.pc (skipIf (!Config.isKeyDown 0 5) _)) = _
  unfold skipIf; cases Config.isKeyDown 0 5 <;> rfl
-- A34
theorem test_rnd_masked : (nextOf (exec (.rnd 3 0x00) State.reset)).map (fun t => t.reg 3) = some 0 := by
  show some (State.reg (State.setReg _ 3 (Config.randomByte 0 &&& 0)) 3) = _
  simp
-- A35
theorem test_rnd_all : (nextOf (exec (.rnd 3 0xFF) State.reset)).map (fun t => t.reg 3) = some (Config.randomByte 0) :=
  congrArg some ((setReg_reg_same _ _ _).trans BitVec.and_allOnes)
-- V10
theorem test_unrecognised : after State.reset 0x0123 (fun t => (t.pc, t.errors, t.time)) = some (0x202, 1, 1) := by decide
-- S3
theorem test_fetch_fault : faultAfter { State.reset with pc := 0x0FFF } 0x00E0 = some (.memoryFault 0x1000) := by decide
-- U18 of spec/93_implementation_defined.md
theorem test_snapshot_refused : (nextOf (step (State.reset.withFetchWord 16 0xF40A))).map (fun t =>
    (cpuSnapshot t, displaySnapshot t)) = some (none, none) := by decide
-- R43, after the step of A1
theorem test_snapshot : (after State.reset 0x6A2B cpuSnapshot) =
    some (some ⟨0x202, 0x050, 0, (Vector.replicate 16 0).set 10 0x2B, false, 0⟩) := by decide
-- R106, S1: the two steps of a run of limit 2 from reset without a ROM, two unrecognised words
theorem test_run : (match runCommand 2 2 State.reset with
    | .done t => some (t.pc, t.errors, t.time, t.watchdog, t.trace)
    | _ => none) = some (0x204, 2, 2, 2, [.sync 2]) := by decide
-- S5
theorem test_faulted : step { State.reset with faulted := true } = .refused .engineFaulted := rfl

/-! ### The hypotheses of every obligation can be met: for each clause a concrete state and operands, at the boundaries of
its range -/

/-- The reset state with the stack pointer at `a`. -/
def spAt (a : Addr) : State := { State.reset with sp := a }

/-- The reset state with the index register at `a`. -/
def indexAt (a : Addr) : State := { State.reset with ireg := a }

/-- The reset state with the program counter at `a` and the word `w` there. -/
def wordAt (a : Addr) (w : Nat) : State := { State.reset with pc := a }.withFetchWord 16 w

/-- An engine waiting for a key for `V4`. -/
def waiting : State := { State.reset with keyWait := some 4 }

theorem witness_EveryDecodedBitIsEncoded : decodeWord 0x8126 = .ok (.shr 1 2) := by decide

theorem witness_DecoderAgreesWithOpcodeMap : OpcodeRow.mk "SHR_Vx" 0xF00F 0x8006 ∈ opcodeTable ∧
    (OpcodeRow.mk "SHR_Vx" 0xF00F 0x8006).matches 0x8126 = true := by decide

theorem witness_MemReadIsBigEndianAndChecked :
    (4095 : Addr).toNat < 4096 ∧ 4096 ≤ (4096 : Addr).toNat ∧ (4095 : Addr).toNat = 4095 ∧ (4094 : Addr).toNat < 4095 := by
  decide

theorem witness_MemWriteStoresExactlyItsBytes : MemoryOk State.reset ∧
    (4095 : Addr).toNat < 4096 ∧ 4096 ≤ (4096 : Addr).toNat ∧ (4095 : Addr).toNat = 4095 ∧ (4094 : Addr).toNat < 4095 := by
  unfold MemoryOk; decide

theorem witness_EqualContentsEqualMemory : Memory.wf Config.reference [(0x300, 5)] = true ∧
    ∀ a, a < 4096 → Memory.read Config.reference [(0x300, 5)] a = Memory.read Config.reference [(0x300, 5)] a :=
  ⟨by decide, fun _ _ => rfl⟩

theorem witness_StoredWordIsFetched : Ready State.reset ∧ MemoryOk State.reset ∧
    ∃ t, memWrite16 State.reset State.reset.pc (encode .cls) = .ok t :=
  ⟨⟨rfl, rfl⟩, rfl, _, memWrite16_fits (by unfold Fits; decide)⟩

theorem witness_StepRuns_faulted : { State.reset with faulted := true }.faulted = true := rfl

theorem witness_StepRuns_fetchFault : Ready { State.reset with pc := 0x0FFF } ∧
    0x0FFF ≤ { State.reset with pc := 0x0FFF }.pc.toNat := ⟨⟨rfl, rfl⟩, by decide⟩

theorem witness_StepRuns_next : Ready (wordAt 0x0FFE 0x6A2B) ∧ (wordAt 0x0FFE 0x6A2B).pc.toNat < 0x0FFF ∧
    decode [(wordAt 0x0FFE 0x6A2B).byteAt 0x0FFE, (wordAt 0x0FFE 0x6A2B).byteAt 0x0FFF] = .ok (.ldImm 10 0x2B, []) ∧
    ∃ t, exec (.ldImm 10 0x2B) { wordAt 0x0FFE 0x6A2B with pc := 0x1000 } = .next t ∧ t.keyWait = none :=
  ⟨⟨rfl, rfl⟩, by decide, by decide, _, rfl, rfl⟩

theorem witness_StepRuns_waits : Ready (wordAt 0x200 0xF40A) ∧ (wordAt 0x200 0xF40A).pc.toNat < 0x0FFF ∧
    decode [(wordAt 0x200 0xF40A).byteAt 0x200, (wordAt 0x200 0xF40A).byteAt 0x201] = .ok (.ldVxK 4, []) ∧
    ∃ t, exec (.ldVxK 4) { wordAt 0x200 0xF40A with pc := 0x202 } = .next t ∧ t.keyWait ≠ none :=
  ⟨⟨rfl, rfl⟩, by decide, by decide, _, rfl, nofun⟩

theorem witness_StepRuns_fault : Ready { wordAt 0x200 0x00EE with sp := 0 } ∧
    decode [{ wordAt 0x200 0x00EE with sp := 0 }.byteAt 0x200, { wordAt 0x200 0x00EE with sp := 0 }.byteAt 0x201] =
      .ok (.ret, []) ∧
    exec .ret { wordAt 0x200 0x00EE with sp := 0, pc := 0x202 } = .fault (.memoryFault 0xFFFE) :=
  ⟨⟨rfl, rfl⟩, by decide, rfl⟩

theorem witness_StepRuns_unrecognised : Ready State.reset ∧ State.reset.pc.toNat < 0x0FFF ∧
    decode [State.reset.byteAt 0x200, State.reset.byteAt 0x201] = .error .ef0 := ⟨⟨rfl, rfl⟩, by decide, by decide⟩

theorem witness_EmulationFault : Ready State.reset ∧ fetch State.reset = .ok 0x0000 ∧ wordRecognised 0x0000 = false :=
  ⟨⟨rfl, rfl⟩, by decide, by decide⟩

theorem inv_reset : Inv State.reset := ⟨by decide, rfl, by decide⟩

/-- A cost was added and `errors` grew. -/
theorem witness_StepSummary_errors : Inv State.reset ∧
    ∃ t, step State.reset = .next t ∧ t.keyWait = none ∧ t.errors ≠ State.reset.errors :=
  ⟨inv_reset, _, rfl, rfl, by decide⟩

/-- A key wait that ends, and an instruction that completes. -/
theorem witness_StepSummary_time :
    (Inv { waiting with keys := [7] } ∧ ∃ t, step { waiting with keys := [7] } = .next t ∧ t.keyWait = none) ∧
    Inv (wordAt 0x200 0x6A2B) ∧ ∃ t, step (wordAt 0x200 0x6A2B) = .next t ∧ t.keyWait = none :=
  ⟨⟨⟨by decide, rfl, by decide⟩, _, rfl, rfl⟩, ⟨by decide, by unfold MemoryOk; decide, by decide⟩, _, rfl, rfl⟩

theorem witness_StepSummary_waits : Inv waiting ∧ ∃ t, step waiting = .next t ∧ t.keyWait ≠ none :=
  ⟨⟨by decide, rfl, by decide⟩, _, rfl, nofun⟩

theorem witness_StepSummary_paused : Inv (wordAt 0x200 0x1200) ∧
    ∃ t, step (wordAt 0x200 0x1200) = .next t ∧ t.paused ≠ (wordAt 0x200 0x1200).paused :=
  ⟨⟨by decide, by unfold MemoryOk; decide, by decide⟩, _, rfl, by decide⟩

theorem witness_OnlyMemoryAccessesFault : accessesMemory .cls = false ∧ accessesMemory .ret = true ∧
    Fits (memoryAccess .ret (spAt 0x1000)).1 (memoryAccess .ret (spAt 0x1000)).2 ∧
    (memoryAccess (.drw 0 1 0) (indexAt 0xFFFF)).2 = 0 ∧
    (memoryAccess .ret (spAt 0x1001)).2 ≠ 0 ∧
    ¬ Fits (memoryAccess .ret (spAt 0x1001)).1 (memoryAccess .ret (spAt 0x1001)).2 := by unfold Fits; decide

/-- One instruction for each clause, each with the change the clause is about. -/
theorem witness_OnlyTheirInstructionsWrite :
    (∃ t, exec (.call 0x300) State.reset = .next t ∧ t.mem ≠ State.reset.mem ∧ t.sp ≠ State.reset.sp) ∧
    (∃ t, exec (.drw 0 0 5) State.reset = .next t ∧ t.disp ≠ State.reset.disp) ∧
    (∃ t, exec (.ldI 0x300) State.reset = .next t ∧ t.ireg ≠ State.reset.ireg) ∧
    (∃ t, exec (.jp 0x1FE) State.reset = .next t ∧ t.paused ≠ State.reset.paused ∧
      t.pc ≠ State.reset.pc ∧ usesIo (.jp 0x1FE) = false) ∧
    (∃ t, exec (.ldImm 15 7) State.reset = .next t ∧ t.reg 15 ≠ State.reset.reg 15) ∧
    (∃ t, exec (.ldVxK 4) { State.reset with keys := [7] } = .next t ∧ t.keys ≠ { State.reset with keys := [7] }.keys) ∧
    (∃ t, exec (.ldVxK 4) State.reset = .next t ∧ t.keyWait ≠ State.reset.keyWait) ∧
    ∃ t, exec (.skp 3) State.reset = .next t ∧ t.draws ≠ State.reset.draws := by
  refine ⟨⟨_, rfl, by decide, by decide⟩, ⟨_, rfl, by decide⟩, ⟨_, rfl, by decide⟩, ⟨_, rfl, by decide, by decide, rfl⟩,
    ⟨_, rfl, by decide⟩, ⟨_, rfl, by decide⟩, ⟨_, rfl, by decide⟩, _, rfl, ?_⟩
  rw [skipIf_eq]
  exact Nat.succ_ne_self 0

theorem witness_EveryStepKeepsInvariant : Inv (wordAt 0x200 0x2300) ∧ ∃ t, step (wordAt 0x200 0x2300) = .next t :=
  ⟨⟨by decide, by unfold MemoryOk; decide, by decide⟩, _, rfl⟩

theorem witness_ResetMeetsInvariant :
    { Config.reference with fontBase := 0x1B0, spReset := 0x0F00, tickPeriod := 1 }.wellFormed = true := by decide

theorem witness_RetPopsReturnAddress : Fits ((spAt 0x1000).sp - 2) 2 ∧ ¬ Fits ((spAt 0x1001).sp - 2) 2 ∧
    ¬ Fits ((spAt 0).sp - 2) 2 ∧ ¬ Fits ((spAt 1).sp - 2) 2 ∧ Fits ((spAt 2).sp - 2) 2 := by unfold Fits; decide

theorem witness_JumpGoesToTarget : (0x200 : Addr12).toNat = ({ State.reset with pc := 0x202 }.pc - 2).toNat ∧
    (0x201 : Addr12).toNat ≠ ({ State.reset with pc := 0x202 }.pc - 2).toNat := by decide

theorem witness_SelfJumpPausesInPlace : Ready (wordAt 0xFFE 0x1FFE) ∧
    fetch (wordAt 0xFFE 0x1FFE) = .ok (formatA 0x1 0xFFE) ∧ (0xFFE : Addr12).toNat = (wordAt 0xFFE 0x1FFE).pc.toNat :=
  ⟨⟨rfl, rfl⟩, by decide, by decide⟩

theorem witness_CallPushesReturnAddress : MemoryOk (spAt 0x0FFE) ∧ Fits (spAt 0x0FFE).sp 2 ∧
    ¬ Fits (spAt 0x0FFF).sp 2 := ⟨rfl, by unfold Fits; decide, by unfold Fits; decide⟩

theorem witness_CallThenRetReturns : MemoryOk State.reset ∧ ∃ t, exec (.call 0x300) State.reset = .next t ∧
    t.sp = t.sp ∧ t.byteAt State.reset.sp.toNat = t.byteAt State.reset.sp.toNat ∧
    t.byteAt (State.reset.sp.toNat + 1) = t.byteAt (State.reset.sp.toNat + 1) := ⟨rfl, _, rfl, rfl, rfl, rfl⟩

theorem witness_ImmediateSkips : State.reset.reg 15 = 0 ∧ State.reset.reg 15 ≠ 0xFF := by decide

theorem witness_RegisterSkips : State.reset.reg 1 = State.reset.reg 2 ∧
    (withRegs [(1, 0x33)]).reg 1 ≠ (withRegs [(1, 0x33)]).reg 2 ∧ (1 : Imm4) ≠ 0 := by decide

theorem witness_RegisterSkips_unrecognised : Ready (wordAt 0x200 0x5121) ∧ Ready (wordAt 0x200 0x912F) ∧
    fetch (wordAt 0x200 0x5121) = .ok (formatR 0x5 1 2 1) ∧ fetch (wordAt 0x200 0x912F) = .ok (formatR 0x9 1 2 15) :=
  ⟨⟨rfl, rfl⟩, ⟨rfl, rfl⟩, by decide, by decide⟩

theorem witness_AddSetsCarry : (1 : Reg) ≠ 15 ∧
    255 < ((withRegs [(1, 0xFF), (2, 0x01)]).reg 1).toNat + ((withRegs [(1, 0xFF), (2, 0x01)]).reg 2).toNat ∧
    ((withRegs [(1, 0x7F), (2, 0x80)]).reg 1).toNat + ((withRegs [(1, 0x7F), (2, 0x80)]).reg 2).toNat ≤ 255 := by decide

/-- One state for the three orders of two registers: `V1` is 1, `V2` is 2, `V3` is 2. -/
theorem witness_SubtractionsSetNotBorrow : (1 : Reg) ≠ 15 ∧
    ((withRegs [(1, 1), (2, 2), (3, 2)]).reg 1).toNat < ((withRegs [(1, 1), (2, 2), (3, 2)]).reg 2).toNat ∧
    ((withRegs [(1, 1), (2, 2), (3, 2)]).reg 2).toNat = ((withRegs [(1, 1), (2, 2), (3, 2)]).reg 3).toNat := by decide

theorem witness_ShiftsIgnoreVy : (14 : Reg) ≠ 15 := by decide

theorem witness_FontAddressPointsAtGlyph : State.reset.cfg.fontFits = true ∧ (4 : Nat) < 5 := by decide

theorem witness_BcdStoresThreeDigits : MemoryOk (indexAt 0x0FFD) ∧ Fits (indexAt 0x0FFD).ireg 3 ∧
    ¬ Fits (indexAt 0x0FFE).ireg 3 := ⟨rfl, by unfold Fits; decide, by unfold Fits; decide⟩

theorem witness_StoreRegistersStoresPrefix : MemoryOk (indexAt 0x0FF0) ∧ Fits (indexAt 0x0FF0).ireg (15 + 1) ∧
    (15 : Reg).toNat ≤ (15 : Reg).toNat ∧ ¬ Fits (indexAt 0x0FF1).ireg (15 + 1) ∧ Fits (indexAt 0x0FFF).ireg (0 + 1) :=
  ⟨rfl, by unfold Fits; decide, by decide, by unfold Fits; decide, by unfold Fits; decide⟩

theorem witness_LoadRegistersLoadsPrefix : Fits (indexAt 0x0FFE).ireg ((1 : Reg).toNat + 1) ∧
    (1 : Reg).toNat ≤ (1 : Reg).toNat ∧ (1 : Reg).toNat < (2 : Reg).toNat ∧
    ¬ Fits (indexAt 0x0FFF).ireg ((1 : Reg).toNat + 1) := by unfold Fits; decide

theorem witness_StoreThenLoadRestoresRegisters : MemoryOk (indexAt 0x300) ∧
    (∃ t, exec (.storeRegs 2) (indexAt 0x300) = .next t) ∧ (2 : Reg).toNat ≤ (2 : Reg).toNat :=
  ⟨rfl, ⟨_, rfl⟩, by decide⟩

theorem witness_BlitMaskPlacesSpriteByte : (63 : Nat) ≤ 63 ∧ (0 : Nat) ≤ 63 := by decide

/-- A blit that clears a lit pixel, with another row beside it. -/
theorem witness_BlitXorsRowAndReportsCollision : (63 : Nat) ≤ 63 ∧ (0 : Fin 32) ≠ 31 ∧
    (blit 63 31 0x80 (Vector.replicate 32 1)).2 = true := by decide

theorem witness_DrawXorsSprite : min (0 : Imm4).toNat (32 - (State.reset.reg 0).toNat % 32) = 0 ∧
    Fits (indexAt 0x0FF1).ireg (min (15 : Imm4).toNat (32 - (State.reset.reg 0).toNat % 32)) ∧
    Fits (indexAt 0x0FFF).ireg (min (2 : Imm4).toNat (32 - ((withRegs [(1, 0x1F)]).reg 1).toNat % 32)) ∧
    min (15 : Imm4).toNat (32 - (State.reset.reg 0).toNat % 32) ≠ 0 ∧
    ¬ Fits (indexAt 0x0FF2).ireg (min (15 : Imm4).toNat (32 - (State.reset.reg 0).toNat % 32)) := by
  unfold Fits; decide

/-- A draw that clears a lit pixel, and one that does not. -/
theorem witness_DrawXorsSprite_flag :
    (∃ t, exec (.drw 0 0 1) { State.reset with disp := Vector.replicate 32 (BitVec.allOnes 64) } = .next t ∧
      pixelLit (Vector.replicate 32 (BitVec.allOnes 64)) 0 0 = true ∧ pixelLit t.disp 0 0 = false) ∧
    ∃ t, exec (.drw 0 0 0) State.reset = .next t ∧
      ¬ ∃ (c : Nat) (r : Fin 32), c ≤ 63 ∧ pixelLit State.reset.disp c r = true ∧ pixelLit t.disp c r = false :=
  ⟨⟨_, rfl, by decide, by decide⟩, _, rfl, fun ⟨c, r, _, h, _⟩ => by simp [pixelLit, State.reset, State.resetWith] at h⟩

theorem witness_DrawingTwiceErases : (0 : Reg) ≠ 15 ∧ (1 : Reg) ≠ 15 ∧
    ∃ t, exec (.drw 0 1 5) State.reset = .next t ∧ State.reset.disp = Vector.replicate 32 0 ∧ t.disp ≠ State.reset.disp :=
  ⟨by decide, by decide, _, rfl, rfl, by decide⟩

theorem witness_IoInstructionsSyncFirst : usesIo .cls = false ∧ (∃ t, exec .cls State.reset = .next t) ∧
    { State.reset with keys := [7, 8] }.keys = 7 :: [8] ∧ State.reset.keys = [] ∧ State.reset.faulted = false :=
  ⟨rfl, ⟨_, rfl⟩, rfl, rfl, rfl⟩

theorem witness_KeyWaitTakesTheKey : { State.reset with keys := [0xBB] }.keys = 0xBB :: [] ∧
    { State.reset with keys := [0xBB] }.keyWait = none := ⟨rfl, rfl⟩

theorem witness_KeyWaitBlocksUntilAnswered : Ready (wordAt 0x200 0xF40A) ∧
    fetch (wordAt 0x200 0xF40A) = .ok (formatI 0xF 4 0x0A) ∧ (wordAt 0x200 0xF40A).keys = [] :=
  ⟨⟨rfl, rfl⟩, by decide, rfl⟩

/-- The timers of a state whose last sync was not after its time can be synced (`TimersSynced`). -/
theorem witness_TimersSynced : { State.reset with dt := 3, timerTime := 5, time := 8 }.timerTime ≤
    { State.reset with dt := 3, timerTime := 5, time := 8 }.time := by decide

theorem witness_TimerCountsTicksSinceSet :
    ((State.reset.time :: [7, 8] ++ [41]).Pairwise fun (a b : Time) => a.toNat ≤ b.toNat) := by decide

theorem witness_TimersGrowOnlyBySet : ∃ t, step (wordAt 0x200 0xF515) = .next t := ⟨_, rfl⟩

theorem witness_FirstInstructionIsAtRomBase :
    ∃ s, loadRomCommand (encodeBytes .cls ++ [0x12, 0x00]) (State.resetWith Config.reference) = .done s := ⟨_, rfl⟩

theorem witness_ResetLeavesResetState : { State.reset with faulted := true, paused := true }.keyWait = none ∧
    (79 : Nat) < 80 ∧ State.reset.cfg.fontBase.toNat + 80 ≤ 80 := by decide

theorem witness_LoadRomWritesOnlyTheRom : State.reset.keyWait = none ∧ MemoryOk State.reset ∧
    (List.replicate 3584 (0 : Byte)).length ≤ 3584 ∧ 3584 < (List.replicate 3585 (0 : Byte)).length :=
  ⟨rfl, rfl, by rw [List.length_replicate], by rw [List.length_replicate]; decide⟩

theorem witness_FaultedEngineIsStopped : { State.reset with faulted := true }.faulted = true ∧
    { State.reset with faulted := true }.keyWait = none ∧
    step { State.reset with pc := 0x1000 } = .fault (.memoryFault 0x1000) ∧
    { State.reset with pc := 0x1000 }.keyWait = none ∧ { State.reset with pc := 0x1000 }.paused = false ∧
    State.reset.time < State.reset.time + 1 := ⟨rfl, rfl, rfl, rfl, rfl, by decide⟩

theorem witness_PausedRunExecutesNothing : Ready { State.reset with paused := true } ∧
    { State.reset with paused := true }.paused = true ∧
    ∃ t, step { State.reset with paused := true } = .next t ∧ t.keyWait = none := ⟨⟨rfl, rfl⟩, rfl, _, rfl, rfl⟩

theorem costs_le_one (i : Instr) : (costOf State.reset.cfg i).toNat ≤ 1 := by
  have h : ∀ (k : Nat) (hk : k < 34), ((Vector.replicate 34 (1 : Time))[k]'hk).toNat ≤ 1 := fun k hk => by simp
  exact h i.row.val i.row.isLt

theorem witness_RunStopsAtTheWatchdog : State.reset.faulted = false ∧ State.reset.watchdog ≤ State.reset.time ∧
    Inv State.reset ∧ Ready State.reset ∧ (∀ i, (costOf State.reset.cfg i).toNat ≤ 1) ∧
    State.reset.cfg.costFault.toNat ≤ 1 ∧ State.reset.time.toNat + (1 : Time).toNat + 1 < 2 ^ 64 ∧
    ∃ t, runCommand 1 1 State.reset = .done t :=
  ⟨rfl, by decide, inv_reset, ⟨rfl, rfl⟩, costs_le_one, by decide, by decide, _, rfl⟩

theorem witness_RunEndsWithinLimitSteps : Inv (wordAt 0x200 0xF40A) ∧ Ready (wordAt 0x200 0xF40A) ∧
    (∀ i, (costOf (wordAt 0x200 0xF40A).cfg i).toNat ≤ 1) ∧ (wordAt 0x200 0xF40A).cfg.costFault.toNat ≤ 1 ∧
    (wordAt 0x200 0xF40A).time.toNat + (10 : Time).toNat + 1 < 2 ^ 64 :=
  ⟨⟨by decide, by unfold MemoryOk; decide, by decide⟩, ⟨rfl, rfl⟩, costs_le_one, by decide, by decide⟩

/-- A completed step and one that waits, one unit before the deadline; a run that stops, at the deadline, and one that
stops because the engine is faulted. -/
theorem witness_RunLoopMakesItsSteps :
    (runGoesOn { State.reset with watchdog := 1 } = true ∧ { State.reset with watchdog := 1 }.keyWait = none ∧
      ∃ t, step { State.reset with watchdog := 1 } = .next t ∧ t.keyWait = none) ∧
    (runGoesOn { wordAt 0x200 0xF40A with watchdog := 1 } = true ∧
      { wordAt 0x200 0xF40A with watchdog := 1 }.keyWait = none ∧
      ∃ t, step { wordAt 0x200 0xF40A with watchdog := 1 } = .next t ∧ t.keyWait ≠ none) ∧
    (runGoesOn { State.reset with watchdog := 9, time := 9 } = false ∧ State.reset.faulted = false) ∧
    runGoesOn { State.reset with watchdog := 1, faulted := true } = false :=
  ⟨⟨by decide, rfl, _, rfl, rfl⟩, ⟨by decide, rfl, _, rfl, nofun⟩, ⟨by decide, rfl⟩, by decide⟩

theorem witness_RunIsItsStepsThenSync : State.reset.keyWait = none ∧
    ∃ t, runCommand 2 2 State.reset = .done t ∧ t.faulted = false := ⟨rfl, _, rfl, rfl⟩

theorem witness_KeyWaitRefusesEveryCommand : waiting.keyWait = some 4 ∧ State.reset.keyWait = none := ⟨rfl, rfl⟩

end Sys2Proof.Tests
end

section
/-! The gate of the host's commands (R110, R214, U18): shut in a key wait, and open for the snapshots otherwise. -/

namespace Sys2Proof.Machine

variable {s : State}

/-! ### The gate is shut -/

theorem resetCommand_refused (h : commandInProgress s = true) : resetCommand s = .refused := by
  simp [resetCommand, h]

theorem loadRomCommand_refused (bytes : List Byte) (h : commandInProgress s = true) :
    loadRomCommand bytes s = .refused := by
  simp [loadRomCommand, h]

theorem stepCommand_refused (h : commandInProgress s = true) : stepCommand s = .refused := by
  simp [stepCommand, h]

theorem runCommand_refused (n : Nat) (limit : Time) (h : commandInProgress s = true) :
    runCommand n limit s = .refused := by
  simp [runCommand, h]

theorem cpuSnapshot_eq_none (h : commandInProgress s = true) : cpuSnapshot s = none := by
  simp [cpuSnapshot, h]

theorem displaySnapshot_eq_none (h : commandInProgress s = true) : displaySnapshot s = none := by
  simp [displaySnapshot, h]

/-! ### The gate is open -/

theorem cpuSnapshot_eq_some (h : commandInProgress s = false) : cpuSnapshot s = some (cpuView s) := by
  simp [cpuSnapshot, h]

theorem displaySnapshot_eq_some (h : commandInProgress s = false) : displaySnapshot s = some (displayView s) := by
  simp [displaySnapshot, h]

/-- The registers of the cpu snapshot are those an instruction reads (R20, R43). -/
theorem cpuView_reg (s : State) (x : Reg) : (cpuView s).v[x.toNat]'(x.isLt) = s.reg x := rfl

/-- Settles O60: every command asks `commandInProgress` first, so a key wait refuses it; without one the snapshots are
the views of the state. -/
theorem keyWaitRefusesEveryCommand : Obligations.KeyWaitRefusesEveryCommand := by
  intro s
  constructor
  · intro x hwait
    have shut : commandInProgress s = true := commandInProgress_some hwait
    exact ⟨resetCommand_refused shut, fun bytes => loadRomCommand_refused bytes shut, stepCommand_refused shut,
      fun n limit => runCommand_refused n limit shut, cpuSnapshot_eq_none shut, displaySnapshot_eq_none shut⟩
  · intro hnowait
    have isOpen : commandInProgress s = false := commandInProgress_none hnowait
    exact ⟨⟨cpuView s, cpuSnapshot_eq_some isOpen, rfl, rfl, rfl, cpuView_reg s, rfl, rfl⟩,
      displayView s, displaySnapshot_eq_some isOpen, rfl, rfl, fun _ => rfl⟩

end Sys2Proof.Machine
end

section
/-! The invariant of the machine (R5, R26, R50): true after reset, and kept by every step. -/

namespace Sys2Proof.Machine

variable {s t : State}

/-- What every instruction keeps is enough to keep the invariant. -/
theorem Kept.inv (k : Kept s t) (h : Inv s) : Inv t := by
  obtain ⟨hcfg, hmem, hsp⟩ := h
  exact ⟨k.cfg ▸ hcfg, k.memory hmem, k.even.trans hsp⟩

/-! ### What the step adds around an instruction touches nothing that the invariant speaks of -/

theorem inv_advancePc (h : Inv s) : Inv s.advancePc := h

theorem inv_takeEmulationFault (h : Inv s) : Inv (takeEmulationFault s) := h

theorem inv_accrue (c : Time) (h : Inv s) : Inv (accrue c s) := by
  rw [accrue_eq]
  exact h

theorem inv_unrecognisedWord (h : Inv s) : Inv (unrecognisedWord s) := inv_accrue _ (inv_takeEmulationFault h)

theorem inv_resumeKeyWait (x : Reg) (h : Inv s) : Inv (resumeKeyWait x s) := inv_accrue _ ((kept_awaitKey x s).inv h)

/-- Settles O15: the three ways a step can answer a next state, by `step_next_cases`; an instruction keeps the invariant
by `exec_kept`. -/
theorem everyStepKeepsInvariant : Obligations.EveryStepKeepsInvariant := by
  intro s t hs hstep
  obtain ⟨-, ⟨x, -, rfl⟩ | ⟨-, w, -, ⟨i, u, -, hexec, rfl⟩ | ⟨e, -, rfl⟩⟩⟩ := step_next_cases hstep
  · exact inv_resumeKeyWait x hs
  · exact inv_accrue _ ((exec_kept hexec).inv (inv_advancePc hs))
  · exact inv_unrecognisedWord (inv_advancePc hs)

/-! ### Reset -/

/-- R5 admits only an even `SP_RESET`. -/
theorem spReset_even {c : Config} (h : c.wellFormed = true) : c.spReset.getLsbD 0 = false := by
  simp only [Config.wellFormed, Config.stackEven, Bool.and_eq_true, beq_iff_eq] at h
  obtain ⟨⟨⟨⟨-, heven⟩, -⟩, -⟩, -⟩ := h
  exact heven

theorem inv_resetWith {c : Config} (h : c.wellFormed = true) : Inv (State.resetWith c) := ⟨h, rfl, spReset_even h⟩

/-- Settles O16: reset lists no byte of memory and sets `sp` to `SP_RESET`; the reference configuration is admitted. -/
theorem resetMeetsInvariant : Obligations.ResetMeetsInvariant :=
  ⟨inv_resetWith (by decide), fun _ => inv_resetWith⟩

end Sys2Proof.Machine
end

section
/-! The canonical form of memory is determined by the contents (log 2). -/

namespace Sys2Proof.Machine

variable {c : Config}

theorem read_head {k : Nat} {b : Byte} {m : Memory} : Memory.read c ((k, b) :: m) k = b := by simp [Memory.read]

theorem read_tail {a k : Nat} {b : Byte} {m : Memory} (h : a ≠ k) :
    Memory.read c ((k, b) :: m) a = Memory.read c m a := by simp [Memory.read, h]

/-- A memory that lists nothing below `lo'` can read at `k` as one that lists `k` only if `lo'` is not above `k`. -/
theorem le_of_read_eq_head {lo lo' k : Nat} {b : Byte} {m n : Memory}
    (hm : Memory.wfFrom c lo ((k, b) :: m) = true) (hn : Memory.wfFrom c lo' n = true)
    (h : Memory.read c ((k, b) :: m) k = Memory.read c n k) : lo' ≤ k := by
  obtain ⟨-, -, hb, -⟩ := wfFrom_cons.mp hm
  by_contra hlt
  rw [read_head, read_below hn (by omega)] at h
  exact hb h

/-- Memories with the same first entry that read alike have tails that read alike. -/
theorem read_tail_eq {k a : Nat} {b : Byte} {m n : Memory} (hm : Memory.wfFrom c (k + 1) m = true)
    (hn : Memory.wfFrom c (k + 1) n = true)
    (h : Memory.read c ((k, b) :: m) a = Memory.read c ((k, b) :: n) a) :
    Memory.read c m a = Memory.read c n a := by
  by_cases hk : a = k
  · rw [read_below hm (by omega), read_below hn (by omega)]
  · rwa [read_tail hk, read_tail hk] at h

theorem eq_of_read_eq {lo lo' : Nat} {m n : Memory} (hm : Memory.wfFrom c lo m = true)
    (hn : Memory.wfFrom c lo' n = true) (h : ∀ a, a < 4096 → Memory.read c m a = Memory.read c n a) : m = n := by
  induction m generalizing lo lo' n with
  | nil =>
    cases n with
    | nil => rfl
    | cons e n =>
      obtain ⟨k, b⟩ := e
      obtain ⟨-, hk, -, -⟩ := wfFrom_cons.mp hn
      have := le_of_read_eq_head (lo' := k + 1) hn rfl (h k hk).symm
      omega
  | cons e m ih =>
    obtain ⟨k, b⟩ := e
    obtain ⟨-, hk, hb, hmtail⟩ := wfFrom_cons.mp hm
    cases n with
    | nil =>
      have := le_of_read_eq_head (lo' := k + 1) hm rfl (h k hk)
      omega
    | cons e' n =>
      obtain ⟨k', b'⟩ := e'
      obtain ⟨-, hk', hb', hntail⟩ := wfFrom_cons.mp hn
      have hle : k' ≤ k := le_of_read_eq_head hm (wfFrom_cons.mpr ⟨le_rfl, hk', hb', hntail⟩) (h k hk)
      have hge : k ≤ k' := le_of_read_eq_head hn (wfFrom_cons.mpr ⟨le_rfl, hk, hb, hmtail⟩) (h k' hk').symm
      obtain rfl : k = k' := by omega
      obtain rfl : b = b' := by simpa only [read_head] using h k hk
      rw [ih hmtail hntail fun a ha => read_tail_eq hmtail hntail (h a ha)]

/-- Settles O8, by induction on the first memory: equal reads force equal first entries, and then tails that read alike. -/
theorem equalContentsEqualMemory : Obligations.EqualContentsEqualMemory := fun _ _ _ hm hn h => eq_of_read_eq hm hn h

end Sys2Proof.Machine
end

section
/-! What each instruction can change (R22, R23, R57, R104): the frame of an instruction, said once for all 34. -/

namespace Sys2Proof.Machine

variable {s t : State}

/-! ### The instructions that can fault, when they do not -/

theorem orMemoryFault_next {e : Except Addr State} (h : orMemoryFault e = .next t) : e = .ok t := by
  cases e with
  | ok u => cases h; rfl
  | error a => cases h

/-- A push changes `sp` and memory only. -/
theorem pushWord_eq {w : Word} (h : pushWord w s = .ok t) : t = { s with sp := t.sp, mem := t.mem } := by
  by_cases hf : Fits s.sp 2
  · rw [pushWord_fits hf] at h; cases h; rfl
  · rw [pushWord_outside hf] at h; cases h

/-- A pop changes `sp` and `pc` only. -/
theorem popToPc_eq (h : popToPc s = .ok t) : t = { s with sp := t.sp, pc := t.pc } := by
  by_cases hf : Fits (s.sp - 2) 2
  · rw [popToPc_fits hf] at h; cases h; rfl
  · rw [popToPc_outside hf] at h; cases h

theorem execCall_next {nnn : Addr12} (h : execCall nnn s = .next t) :
    ∃ u, pushWord s.pc s = .ok u ∧ t = { u with pc := zextAddr nnn } := by
  unfold execCall at h
  split at h
  · cases h; exact ⟨_, ‹_›, rfl⟩
  · cases h

theorem execDrw_next {x y : Reg} {n : Imm4} (h : execDrw x y n s = .next t) :
    ∃ bytes, t = drawSprite x y bytes s := by
  unfold execDrw at h
  split at h
  · cases h; exact ⟨_, rfl⟩
  · cases h

theorem execLoadRegs_next {x : Reg} (h : execLoadRegs x s = .next t) :
    ∃ bs, bs.length = regCount x ∧ t = setRegsFrom 0 bs s := by
  unfold execLoadRegs at h
  split at h
  · obtain ⟨-, hbs⟩ := loadBytes_ok ‹_›
    cases h
    exact ⟨_, by simp [hbs], rfl⟩
  · cases h

/-- `IoNextKey` changes the registers, the trace and the key wait with its answers only. -/
theorem awaitKey_eq (x : Reg) (s : State) :
    awaitKey x s = { s with
      v := (awaitKey x s).v, trace := (awaitKey x s).trace, keyWait := (awaitKey x s).keyWait,
      keys := (awaitKey x s).keys } := by
  obtain ⟨-, h⟩ | ⟨k, rest, -, h⟩ := awaitKey_cases x s
  · rw [h]
  · rw [h]; rfl

theorem awaitKey_reg_ne {x y : Reg} (s : State) (h : y ≠ x) : (awaitKey x s).reg y = s.reg y := by
  obtain ⟨-, hk⟩ | ⟨k, rest, -, hk⟩ := awaitKey_cases x s <;> rw [hk]
  · rfl
  · exact setReg_reg_ne _ _ h

/-- A run of registers loaded from `V0` up leaves the registers after it. -/
theorem setRegsFrom_zero_reg_ge {bs : List Byte} {y : Reg} (s : State) (hl : bs.length ≤ 16)
    (h : bs.length ≤ y.toNat) : (setRegsFrom 0 bs s).reg y = s.reg y := by
  rw [setRegsFrom_reg bs 0 y s (by simpa using hl), dif_neg (by simp; omega)]

/-! ### The frame of an instruction -/

/-- `s` with the fields that the rule of `i` lets it write taken from `t`. -/
def frameOf (i : Instr) (s t : State) : State :=
  match i with
  | .cls => { s with disp := t.disp }
  | .drw _ _ _ => { s with disp := t.disp, v := t.v }
  | .ret => { s with sp := t.sp, pc := t.pc }
  | .call _ => { s with sp := t.sp, pc := t.pc, mem := t.mem }
  | .jp _ => { s with pc := t.pc, paused := t.paused }
  | .jpV0 _ | .seImm _ _ | .sneImm _ _ | .seReg _ _ | .sneReg _ _ => { s with pc := t.pc }
  | .ldI _ | .addI _ | .ldF _ => { s with ireg := t.ireg }
  | .ldB _ | .storeRegs _ => { s with mem := t.mem }
  | .rnd _ _ => { s with v := t.v, draws := t.draws }
  | .skp _ | .sknp _ =>
    { s with pc := t.pc, dt := t.dt, st := t.st, timerTime := t.timerTime, trace := t.trace, draws := t.draws }
  | .ldVxDt _ => { s with v := t.v, dt := t.dt, st := t.st, timerTime := t.timerTime, trace := t.trace }
  | .ldVxK _ =>
    { s with
      v := t.v, dt := t.dt, st := t.st, timerTime := t.timerTime, trace := t.trace, keyWait := t.keyWait,
      keys := t.keys }
  | .ldDtVx _ | .ldStVx _ => { s with dt := t.dt, st := t.st, timerTime := t.timerTime, trace := t.trace }
  | .ldImm _ _ | .addImm _ _ | .ldReg _ _ | .orReg _ _ | .andReg _ _ | .xorReg _ _ | .addReg _ _ | .subReg _ _
  | .shr _ _ | .subn _ _ | .shl _ _ | .loadRegs _ => { s with v := t.v }

/-- An instruction writes the fields of its frame and no other. -/
theorem exec_eq_frameOf {i : Instr} (h : exec i s = .next t) : t = frameOf i s t := by
  cases i
  case ret => exact popToPc_eq (orMemoryFault_next h)
  case call nnn =>
    obtain ⟨u, hu, rfl⟩ := execCall_next h
    rw [pushWord_eq hu]; rfl
  case drw x y n =>
    obtain ⟨bytes, rfl⟩ := execDrw_next h
    rfl
  case ldB | storeRegs => exact storeBytes_eq (orMemoryFault_next h)
  case loadRegs x =>
    obtain ⟨bs, -, rfl⟩ := execLoadRegs_next h
    exact setRegsFrom_eq bs 0 s
  case ldVxK x => cases h; rw [awaitKey_eq]; rfl
  case seImm | sneImm | seReg | sneReg | skp | sknp => cases h; rw [skipIf_eq]; rfl
  all_goals (cases h; rfl)

/-- A general register that R22 does not let an instruction write stays as it was. -/
theorem exec_reg_of_not_writesReg {i : Instr} {r : Reg} (h : exec i s = .next t) (hr : ¬ writesReg i r) :
    t.reg r = s.reg r := by
  cases i
  case ldImm | addImm | ldReg | orReg | andReg | xorReg | rnd | ldVxDt => cases h; exact setReg_reg_ne _ _ hr
  case addReg | subReg | shr | subn | shl =>
    cases h
    exact setRegFlag_reg_ne _ _ _ (fun hx => hr (.inl hx)) (fun hf => hr (.inr hf))
  case ldVxK => cases h; exact awaitKey_reg_ne _ hr
  case drw x y n =>
    obtain ⟨bytes, rfl⟩ := execDrw_next h
    exact setReg_reg_ne _ _ hr
  case loadRegs x =>
    obtain ⟨bs, hl, rfl⟩ := execLoadRegs_next h
    have hlast : ¬ r.toNat ≤ x.toNat := hr
    exact setRegsFrom_zero_reg_ge s (by rw [hl, regCount]; omega) (by rw [hl, regCount]; omega)
  -- every other frame holds no general register
  all_goals (rw [exec_eq_frameOf h]; rfl)

/-! ### Which frames hold a field -/

section
variable (i : Instr) (s t : State)

theorem frameOf_pc : (frameOf i s t).pc = s.pc ∨ writesPc i = true := by
  cases i <;> simp [frameOf, writesPc]

theorem frameOf_mem : (frameOf i s t).mem = s.mem ∨
    (∃ nnn, i = .call nnn) ∨ (∃ x, i = .ldB x) ∨ (∃ x, i = .storeRegs x) := by
  cases i <;> simp [frameOf]

theorem frameOf_disp : (frameOf i s t).disp = s.disp ∨ i = .cls ∨ ∃ x y n, i = .drw x y n := by
  cases i <;> simp [frameOf]

theorem frameOf_sp : (frameOf i s t).sp = s.sp ∨ i = .ret ∨ ∃ nnn, i = .call nnn := by
  cases i <;> simp [frameOf]

theorem frameOf_ireg : (frameOf i s t).ireg = s.ireg ∨
    (∃ nnn, i = .ldI nnn) ∨ (∃ x, i = .addI x) ∨ (∃ x, i = .ldF x) := by
  cases i <;> simp [frameOf]

theorem frameOf_paused : (frameOf i s t).paused = s.paused ∨ ∃ nnn, i = .jp nnn := by
  cases i <;> simp [frameOf]

theorem frameOf_keyWait : (frameOf i s t).keyWait = s.keyWait ∨ ∃ x, i = .ldVxK x := by
  cases i <;> simp [frameOf]

theorem frameOf_keys : (frameOf i s t).keys = s.keys ∨ ∃ x, i = .ldVxK x := by
  cases i <;> simp [frameOf]

theorem frameOf_draws : (frameOf i s t).draws = s.draws ∨
    (∃ x kk, i = .rnd x kk) ∨ (∃ x, i = .skp x) ∨ (∃ x, i = .sknp x) := by
  cases i <;> simp [frameOf]

theorem frameOf_timers :
    ((frameOf i s t).dt = s.dt ∧ (frameOf i s t).st = s.st ∧ (frameOf i s t).timerTime = s.timerTime ∧
      (frameOf i s t).trace = s.trace) ∨ usesIo i = true := by
  cases i <;> simp [frameOf, usesIo]

end

/-- What an instruction changes is in its frame: if its frame leaves what `see` shows alone, or `P` holds, then a
change of it says `P`. -/
theorem exec_changes {α : Type} {i : Instr} (see : State → α) {P : Prop} (h : exec i s = .next t)
    (hframe : see (frameOf i s t) = see s ∨ P) (hne : see t ≠ see s) : P :=
  hframe.resolve_left fun hsame => hne ((congrArg see (exec_eq_frameOf h)).trans hsame)

/-- Settles O14: each clause reads a field off the frame of the instruction; the registers are
`exec_reg_of_not_writesReg`, and what no instruction writes is part of `exec_kept`. -/
theorem onlyTheirInstructionsWrite : Obligations.OnlyTheirInstructionsWrite := by
  intro i s t h
  have hkept : Kept s t := exec_kept h
  refine ⟨fun r hne => by_contra fun hr => hne (exec_reg_of_not_writesReg h hr),
    exec_changes State.pc h (frameOf_pc i s t), exec_changes State.mem h (frameOf_mem i s t),
    exec_changes State.disp h (frameOf_disp i s t), exec_changes State.sp h (frameOf_sp i s t),
    exec_changes State.ireg h (frameOf_ireg i s t), exec_changes State.paused h (frameOf_paused i s t), ?_, ?_,
    exec_changes State.draws h (frameOf_draws i s t),
    hkept.time, hkept.watchdog, hkept.errors, hkept.faulted, hkept.cfg⟩
  · intro hio
    rw [exec_eq_frameOf h]
    exact (frameOf_timers i s t).resolve_right (by simp [hio])
  · rintro (hwait | hkeys)
    · exact exec_changes State.keyWait h (frameOf_keyWait i s t) hwait
    · exact exec_changes State.keys h (frameOf_keys i s t) hkeys

end Sys2Proof.Machine
end

section
/-! What the command `Reset` leaves (R42, R260, R264). -/

namespace Sys2Proof.Machine

/-! ### The reset contents of memory -/

theorem resetByte_font {c : Config} {k : Nat} (hk : k < 80) :
    resetByte c (c.fontBase.toNat + k) = c.fontData[k] := by
  rw [resetByte, dif_pos (by omega)]
  simp

theorem resetByte_outside_font {c : Config} {a : Nat} (h : a < c.fontBase.toNat ∨ c.fontBase.toNat + 80 ≤ a) :
    resetByte c a = 0 := by
  rw [resetByte, dif_neg (by omega)]

/-! ### The state after reset -/

theorem resetWith_reg (c : Config) (x : Reg) : (State.resetWith c).reg x = 0 := Vector.getElem_replicate _

theorem resetWith_disp (c : Config) (r : Fin 32) : (State.resetWith c).disp[r] = 0 := Vector.getElem_replicate _

theorem resetWith_byteAt (c : Config) (a : Nat) : (State.resetWith c).byteAt a = resetByte c a := rfl

theorem resetCommand_done {s : State} (h : s.keyWait = none) :
    resetCommand s = .done { State.resetWith s.cfg with keys := s.keys, draws := s.draws } := by
  simp [resetCommand, commandInProgress_none h]

/-- Settles O52: `Reset` leaves the reset table for the configuration it finds, with the environment's fields kept. -/
theorem resetLeavesResetState : Obligations.ResetLeavesResetState := by
  intro s hnowait
  have hfont : ∀ (k : Nat) (hk : k < 80),
      (State.resetWith s.cfg).byteAt (s.cfg.fontBase.toNat + k) = s.cfg.fontData[k] :=
    fun k hk => (resetWith_byteAt _ _).trans (resetByte_font hk)
  have hzero : ∀ a, a < s.cfg.fontBase.toNat ∨ s.cfg.fontBase.toNat + 80 ≤ a →
      (State.resetWith s.cfg).byteAt a = 0 :=
    fun a ha => (resetWith_byteAt _ _).trans (resetByte_outside_font ha)
  exact ⟨_, resetCommand_done hnowait, rfl, rfl, rfl, rfl, rfl, resetWith_reg s.cfg, rfl, rfl, rfl, rfl, rfl, rfl, rfl,
    resetWith_disp s.cfg, rfl, hfont, hzero, rfl, rfl, rfl, rfl⟩

end Sys2Proof.Machine
end

section
/-! A word and its instruction (R80 to R86): the decoder undoes the encoder. -/

namespace Sys2Proof

/-! ### The three types with a dispatch of their own -/

theorem decodeWord_of_type_alu {w : Word} (h : fieldType w = 0x8) : decodeWord w = decodeAlu w := by
  rw [decodeWord, h]; rfl

theorem decodeWord_of_type_key {w : Word} (h : fieldType w = 0xE) : decodeWord w = decodeKey w := by
  rw [decodeWord, h]; rfl

theorem decodeWord_of_type_misc {w : Word} (h : fieldType w = 0xF) : decodeWord w = decodeMisc w := by
  rw [decodeWord, h]; rfl

/-- The word of an instruction decodes to it: `type` and the sub-opcode name its row, and the other fields are its
operands. -/
theorem decodeWord_encode (i : Instr) : decodeWord (encode i) = .ok i := by
  cases i
  case cls | ret => rfl
  case jp | call | ldI | jpV0 | seImm | sneImm | ldImm | addImm | rnd | seReg | sneReg | drw =>
    simp [encode, decodeWord]
  case ldReg | orReg | andReg | xorReg | addReg | subReg | shr | subn | shl =>
    rw [encode, decodeWord_of_type_alu (fieldType_formatR ..)]
    simp [decodeAlu]
  case skp | sknp =>
    rw [encode, decodeWord_of_type_key (fieldType_formatI ..)]
    simp [decodeKey]
  case ldVxDt | ldVxK | ldDtVx | ldStVx | addI | ldF | ldB | storeRegs | loadRegs =>
    rw [encode, decodeWord_of_type_misc (fieldType_formatI ..)]
    simp [decodeMisc]

end Sys2Proof
end

section
/-! Checked accesses to main memory and `LoadRom` (R51 to R55, R62, R66): what each one answers, and what it leaves. -/

namespace Sys2Proof.Machine

variable {s t : State}

/-! ### Single bytes that fit, and those that do not -/

theorem memRead8_fits {a : Addr} (h : a.toNat < 4096) : memRead8 s a = .ok (s.byteAt a.toNat) := if_pos h

theorem memRead8_outside {a : Addr} (h : 4096 ≤ a.toNat) : memRead8 s a = .error a := if_neg (by omega)

theorem memWrite8_fits {a : Addr} {b : Byte} (h : a.toNat < 4096) :
    memWrite8 s a b = .ok (s.setByte a.toNat b) := if_pos h

theorem memWrite8_outside {a : Addr} {b : Byte} (h : 4096 ≤ a.toNat) : memWrite8 s a b = .error a :=
  if_neg (by omega)

/-! ### Two bytes fit up to 4094 -/

theorem fits_two_iff {a : Addr} : Fits a 2 ↔ a.toNat < 4095 := by unfold Fits; omega

/-- From 4096 up the first byte is the one outside. -/
theorem firstOutside_of_ge {a : Addr} (h : 4096 ≤ a.toNat) : firstOutside a = a := if_neg (by omega)

/-- At 4095 the second byte is the one outside. -/
theorem firstOutside_of_eq_last {a : Addr} (h : a.toNat = 4095) : firstOutside a = a + 1 := by
  rw [firstOutside, if_pos (by omega)]
  apply BitVec.eq_of_toNat_eq
  rw [addr_succ (by omega), h]
  rfl

theorem memRead16_first_outside {a : Addr} (h : 4096 ≤ a.toNat) : memRead16 s a = .error a := by
  rw [memRead16_outside (by rw [fits_two_iff]; omega), firstOutside_of_ge h]

theorem memRead16_second_outside {a : Addr} (h : a.toNat = 4095) : memRead16 s a = .error (a + 1) := by
  rw [memRead16_outside (by rw [fits_two_iff]; omega), firstOutside_of_eq_last h]

theorem memWrite16_first_outside {a : Addr} {w : Word} (h : 4096 ≤ a.toNat) : memWrite16 s a w = .error a := by
  rw [memWrite16_outside (by rw [fits_two_iff]; omega), firstOutside_of_ge h]

theorem memWrite16_second_outside {a : Addr} {w : Word} (h : a.toNat = 4095) :
    memWrite16 s a w = .error (a + 1) := by
  rw [memWrite16_outside (by rw [fits_two_iff]; omega), firstOutside_of_eq_last h]

/-- Settles O6: an access that fits answers its bytes, one that does not its first address outside. -/
theorem memReadIsBigEndianAndChecked : Obligations.MemReadIsBigEndianAndChecked := fun _ _ =>
  ⟨memRead8_fits, fun h => ⟨memRead8_outside h, memRead16_first_outside h⟩, memRead16_second_outside,
    fun h => ⟨_, memRead16_fits (fits_two_iff.mpr h), wordOfBytes_toNat _ _⟩⟩

/-! ### What a write leaves -/

/-- A change of memory alone that keeps every address outside a run of bytes that fits is a store to that run. -/
theorem onlyStores_of_keeps_outside {a : Addr} {n : Nat} (hfit : Fits a n) (hmem : t = { s with mem := t.mem })
    (hout : ∀ i, i < a.toNat ∨ a.toNat + n ≤ i → t.byteAt i = s.byteAt i) : OnlyStores a n s t :=
  ⟨hmem, fun y _ => by rw [hmem]; rfl, fun i hi => hout i ((outside_of_fits hfit).mp hi)⟩

theorem memWrite8_onlyStores {a : Addr} {b : Byte} (h : memWrite8 s a b = .ok t) : OnlyStores a 1 s t := by
  obtain ⟨ha, rfl⟩ := memWrite8_ok h
  exact onlyStores_of_keeps_outside (Nat.succ_le_of_lt ha) rfl fun i hi => setByte_byteAt_ne b (by omega)

theorem memWrite8_memoryOk {a : Addr} {b : Byte} (hs : MemoryOk s) (h : memWrite8 s a b = .ok t) : MemoryOk t := by
  obtain ⟨ha, rfl⟩ := memWrite8_ok h
  exact setByte_wf b hs ha

theorem memWrite8_byteAt {a : Addr} {b : Byte} (hs : MemoryOk s) (h : memWrite8 s a b = .ok t) :
    t.byteAt a.toNat = b := by
  obtain ⟨-, rfl⟩ := memWrite8_ok h
  exact setByte_byteAt_same b hs

theorem memWrite16_onlyStores {a : Addr} {w : Word} (h : memWrite16 s a w = .ok t) : OnlyStores a 2 s t := by
  obtain ⟨ha, rfl⟩ := memWrite16_ok h
  refine onlyStores_of_keeps_outside (fits_two_iff.mpr ha) rfl fun i hi => ?_
  rw [setByte_byteAt_ne _ (by omega), setByte_byteAt_ne _ (by omega)]

theorem memWrite16_byteAt_high {a : Addr} {w : Word} (hs : MemoryOk s) (h : memWrite16 s a w = .ok t) :
    t.byteAt a.toNat = highByte w := by
  obtain ⟨-, rfl⟩ := memWrite16_ok h
  rw [setByte_byteAt_ne _ (by omega), setByte_byteAt_same _ hs]

theorem memWrite16_byteAt_low {a : Addr} {w : Word} (hs : MemoryOk s) (h : memWrite16 s a w = .ok t) :
    t.byteAt (a.toNat + 1) = lowByte w := by
  obtain ⟨ha, rfl⟩ := memWrite16_ok h
  exact setByte_byteAt_same _ (setByte_wf _ hs (by omega))

/-- Settles O7: a write that fits stores its bytes and nothing else; one that does not answers its first address
outside. -/
theorem memWriteStoresExactlyItsBytes : Obligations.MemWriteStoresExactlyItsBytes := by
  intro s a b w hs
  refine ⟨fun ha => ?_, fun ha => ⟨memWrite8_outside ha, memWrite16_first_outside ha⟩, memWrite16_second_outside,
    fun ha => ?_⟩
  · have hw : memWrite8 s a b = .ok _ := memWrite8_fits ha
    exact ⟨_, hw, memWrite8_byteAt hs hw, memWrite8_onlyStores hw, memWrite8_memoryOk hs hw⟩
  · have hw : memWrite16 s a w = .ok _ := memWrite16_fits (fits_two_iff.mpr ha)
    exact ⟨_, hw, by rw [memWrite16_byteAt_high hs hw, highByte_toNat],
      by rw [memWrite16_byteAt_low hs hw, lowByte_toNat], memWrite16_onlyStores hw, memWrite16_wf hs hw⟩

/-! ### A stored word is fetched -/

/-- A word written reads back. -/
theorem memRead16_of_memWrite16 {a : Addr} {w : Word} (hs : MemoryOk s) (h : memWrite16 s a w = .ok t) :
    memRead16 t a = .ok w := by
  obtain ⟨ha, -⟩ := memWrite16_ok h
  rw [memRead16_fits (fits_two_iff.mpr ha), memWrite16_byteAt_high hs h, memWrite16_byteAt_low hs h, wordOfBytes_bytes]

/-- Settles O9: the write changes memory only, so the next step fetches at the same `pc` and reads the word back, which
decodes to its instruction. -/
theorem storedWordIsFetched : Obligations.StoredWordIsFetched := by
  intro s t i hready hs hwrite
  have hread : memRead16 t s.pc = .ok (encode i) := memRead16_of_memWrite16 hs hwrite
  obtain ⟨-, rfl⟩ := memWrite16_ok hwrite
  exact step_instr hready hread (decodeWord_encode i)

/-! ### LoadRom -/

theorem loadRomCommand_done {bytes : List Byte} (h : s.keyWait = none) (hfit : bytes.length ≤ 3584) :
    loadRomCommand bytes s = .done (writeRom 0x200 bytes s) := by
  simp [loadRomCommand, commandInProgress_none h, romFits, hfit]

theorem loadRomCommand_too_long {bytes : List Byte} (h : 3584 < bytes.length) :
    loadRomCommand bytes s = .refused := by
  simp [loadRomCommand, romFits, h]

/-- Settles O53: a ROM that fits ends at or below 4096, so `writeRom_spec` says what is stored. -/
theorem loadRomWritesOnlyTheRom : Obligations.LoadRomWritesOnlyTheRom := by
  intro bytes s hnowait hs
  exact ⟨fun hfit => ⟨_, loadRomCommand_done hnowait hfit, writeRom_spec bytes 0x200 s (by omega) hs⟩,
    loadRomCommand_too_long⟩

end Sys2Proof.Machine
end

section
/-! The decoder, the encoder and the opcode map (R80 to R92, R231): a word that decodes is the encoding of what it decodes
to, the rejected words are the six classes of R87, and the rows of R86 say the same as the decoder. -/

namespace Sys2Proof

variable {w : Word} {e : Reject} {i : Instr} {r : OpcodeRow}

/-! ### A word with the fixed fields of a format (R82 to R84) -/

theorem formatA_of_fields {t : BitVec 4} {a : Addr12} (ht : fieldType w = t)
    (ha : (fieldAddr12 w).toNat = a.toNat) : formatA t a = w := by
  rw [← ht, ← BitVec.eq_of_toNat_eq ha, formatA_fields]

theorem formatI_of_fields {t : BitVec 4} {kk : Imm8} (ht : fieldType w = t)
    (hk : (fieldImm8 w).toNat = kk.toNat) : formatI t (fieldX w) kk = w := by
  rw [← ht, ← BitVec.eq_of_toNat_eq hk, formatI_fields]

theorem formatR_of_fields {t : BitVec 4} {n : Imm4} (ht : fieldType w = t)
    (hn : (fieldImm4 w).toNat = n.toNat) : formatR t (fieldX w) (fieldY w) n = w := by
  rw [← ht, ← BitVec.eq_of_toNat_eq hn, formatR_fields]

/-! ### The six classes of unrecognised words (R87) -/

/-- The word lies in the class of R87 that R231 labels `e`; a word, being two bytes, is never `truncated`. -/
def InClass (w : Word) : Reject → Prop
  | .ef0 => fieldType w = 0x0 ∧ fieldAddr12 w ≠ 0x0E0 ∧ fieldAddr12 w ≠ 0x0EE
  | .ef5 => fieldType w = 0x5 ∧ fieldImm4 w ≠ 0
  | .ef9 => fieldType w = 0x9 ∧ fieldImm4 w ≠ 0
  | .ef8 => fieldType w = 0x8 ∧ fieldImm4 w ∈ ([0x8, 0x9, 0xA, 0xB, 0xC, 0xD, 0xF] : List Imm4)
  | .efE => fieldType w = 0xE ∧ fieldImm8 w ∉ ([0x9E, 0xA1] : List Imm8)
  | .efF => fieldType w = 0xF ∧
      fieldImm8 w ∉ ([0x07, 0x0A, 0x15, 0x18, 0x1E, 0x29, 0x33, 0x55, 0x65] : List Imm8)
  | .truncated => False

/-- The label of the class that a type has, if it has one. -/
def classOfType (t : BitVec 4) : Reject :=
  match t.toNat with
  | 0x0 => .ef0
  | 0x5 => .ef5
  | 0x8 => .ef8
  | 0x9 => .ef9
  | 0xE => .efE
  | 0xF => .efF
  | _ => .truncated

theorem InClass.eq_classOfType (h : InClass w e) : e = classOfType (fieldType w) := by
  cases e with
  | truncated => exact h.elim
  | _ => rw [h.1]; rfl

/-! ### What the decoder answers -/

/-- An answer of the decoder that is right for `w`: an instruction whose encoding is `w`, or the label of `w`'s class. -/
def RightAnswer (w : Word) : Except Reject Instr → Prop
  | .ok i => encode i = w
  | .error e => InClass w e

theorem decodeSys_right (ht : fieldType w = 0x0) : RightAnswer w (decodeSys w) := by
  unfold decodeSys
  split
  case h_1 ha | h_2 ha => exact formatA_of_fields ht ha
  case h_3 hcls hret => exact ⟨ht, fun h => hcls (congrArg BitVec.toNat h), fun h => hret (congrArg BitVec.toNat h)⟩

theorem decodeAlu_right (ht : fieldType w = 0x8) : RightAnswer w (decodeAlu w) := by
  unfold decodeAlu
  split
  case h_10 =>
    refine ⟨ht, ?_⟩
    simp only [List.mem_cons, List.not_mem_nil, ← BitVec.toNat_inj, BitVec.reduceToNat, imp_false] at *
    omega
  all_goals exact formatR_of_fields ht ‹_›

theorem decodeKey_right (ht : fieldType w = 0xE) : RightAnswer w (decodeKey w) := by
  unfold decodeKey
  split
  case h_3 =>
    simp only [imp_false] at *
    exact ⟨ht, by simp [← BitVec.toNat_inj, *]⟩
  all_goals exact formatI_of_fields ht ‹_›

theorem decodeMisc_right (ht : fieldType w = 0xF) : RightAnswer w (decodeMisc w) := by
  unfold decodeMisc
  split
  case h_10 =>
    simp only [imp_false] at *
    exact ⟨ht, by simp [← BitVec.toNat_inj, *]⟩
  all_goals exact formatI_of_fields ht ‹_›

/-- The decoder is right on every word: by the type, and within a type by the sub-opcode. The case `h_k` is type `k - 1`. -/
theorem decodeWord_right (w : Word) : RightAnswer w (decodeWord w) := by
  unfold decodeWord
  split
  case h_1 ht => exact decodeSys_right (BitVec.eq_of_toNat_eq ht)
  case h_2 ht | h_3 ht | h_11 ht | h_12 ht => exact formatA_of_fields (BitVec.eq_of_toNat_eq ht) rfl
  case h_4 ht | h_5 ht | h_7 ht | h_8 ht | h_13 ht => exact formatI_of_fields (BitVec.eq_of_toNat_eq ht) rfl
  case h_6 ht | h_10 ht =>
    split
    · exact formatR_of_fields (BitVec.eq_of_toNat_eq ht) (congrArg BitVec.toNat ‹_›)
    · exact ⟨BitVec.eq_of_toNat_eq ht, ‹_›⟩
  case h_9 ht => exact decodeAlu_right (BitVec.eq_of_toNat_eq ht)
  case h_14 ht => exact formatR_of_fields (BitVec.eq_of_toNat_eq ht) rfl
  case h_15 ht => exact decodeKey_right (BitVec.eq_of_toNat_eq ht)
  case h_16 =>
    simp only [imp_false] at *
    exact decodeMisc_right (BitVec.eq_of_toNat_eq (show _ = 15 by omega))

theorem encode_of_decodeWord (h : decodeWord w = .ok i) : encode i = w := by
  have hright := decodeWord_right w
  rwa [h] at hright

theorem inClass_of_decodeWord (h : decodeWord w = .error e) : InClass w e := by
  have hright := decodeWord_right w
  rwa [h] at hright

/-- Settles O2: `decodeWord_encode`, and the two bytes of a word make the word again. -/
theorem decodeOfEncodeIsIdentity : Obligations.DecodeOfEncodeIsIdentity := by
  intro i rest
  have hword : decodeWord (encode i) = .ok i := decodeWord_encode i
  refine ⟨hword, ?_⟩
  rw [encodeBytes, List.cons_append, List.cons_append, decode_two, wordOfBytes_bytes, hword]
  rfl

/-- Settles O3: the decoder is right on every word it accepts, and the shifts do not read `y`. -/
theorem everyDecodedBitIsEncoded : Obligations.EveryDecodedBitIsEncoded :=
  ⟨fun _ _ => encode_of_decodeWord,
    fun x y _ _ => ⟨decodeWord_encode (.shr x y), decodeWord_encode (.shl x y), rfl, rfl⟩⟩

/-! ### The opcode map (R86) -/

open Laws in
/-- The word of an instruction matches the row the instruction stands for. -/
theorem opcodeRow_matches_encode : (i : Instr) → i.opcodeRow.matches (encode i) = true
  | .cls => TableRow.cls
  | .ret => TableRow.ret
  | .jp _ => TableRow.jp _
  | .call _ => TableRow.call _
  | .seImm _ _ => TableRow.seImm _ _
  | .sneImm _ _ => TableRow.sneImm _ _
  | .seReg _ _ => TableRow.seReg _ _
  | .ldImm _ _ => TableRow.ldImm _ _
  | .addImm _ _ => TableRow.addImm _ _
  | .ldReg _ _ => TableRow.ldReg _ _
  | .orReg _ _ => TableRow.orReg _ _
  | .andReg _ _ => TableRow.andReg _ _
  | .xorReg _ _ => TableRow.xorReg _ _
  | .addReg _ _ => TableRow.addReg _ _
  | .subReg _ _ => TableRow.subReg _ _
  | .shr _ _ => TableRow.shr _ _
  | .subn _ _ => TableRow.subn _ _
  | .shl _ _ => TableRow.shl _ _
  | .sneReg _ _ => TableRow.sneReg _ _
  | .ldI _ => TableRow.ldI _
  | .jpV0 _ => TableRow.jpV0 _
  | .rnd _ _ => TableRow.rnd _ _
  | .drw _ _ _ => TableRow.drw _ _ _
  | .skp _ => TableRow.skp _
  | .sknp _ => TableRow.sknp _
  | .ldVxDt _ => TableRow.ldVxDt _
  | .ldVxK _ => TableRow.ldVxK _
  | .ldDtVx _ => TableRow.ldDtVx _
  | .ldStVx _ => TableRow.ldStVx _
  | .addI _ => TableRow.addI _
  | .ldF _ => TableRow.ldF _
  | .ldB _ => TableRow.ldB _
  | .storeRegs _ => TableRow.storeRegs _
  | .loadRegs _ => TableRow.loadRegs _

/-- A word that decodes matches the row of its instruction. -/
theorem matches_of_decodeWord (h : decodeWord w = .ok i) : i.opcodeRow.matches w = true :=
  encode_of_decodeWord h ▸ opcodeRow_matches_encode i

theorem opcodeRow_mem (i : Instr) : i.opcodeRow ∈ opcodeTable := List.getElem_mem _

theorem and_mask_of_matches (h : r.matches w = true) : w &&& r.mask = r.value := eq_of_beq h

/-- Two rows that one word matches have equal fixed bits wherever both masks look. -/
theorem fixedBits_eq_of_matches {q : OpcodeRow} (hr : r.matches w = true) (hq : q.matches w = true) :
    r.value &&& q.mask = q.value &&& r.mask := by
  rw [← and_mask_of_matches hr, ← and_mask_of_matches hq]
  ac_rfl

/-- Two rows of R86 that agree on the bits both fix are the same row. -/
theorem row_eq_of_fixedBits_eq : ∀ r ∈ opcodeTable, ∀ q ∈ opcodeTable,
    r.value &&& q.mask = q.value &&& r.mask → r = q := by decide

/-- No word matches two rows (R92). -/
theorem row_eq_of_matches {q : OpcodeRow} (hr : r ∈ opcodeTable) (hq : q ∈ opcodeTable) (hrw : r.matches w = true)
    (hqw : q.matches w = true) : r = q :=
  row_eq_of_fixedBits_eq r hr q hq (fixedBits_eq_of_matches hrw hqw)

/-! ### No row lies in a class -/

/-- A field that the mask of a row covers is the row's, in every word the row matches. -/
theorem field_eq_of_matches {start len : Nat} (h : r.matches w = true)
    (hmask : r.mask.extractLsb' start len = BitVec.allOnes len) :
    w.extractLsb' start len = r.value.extractLsb' start len := by
  rw [← and_mask_of_matches h, BitVec.extractLsb'_and, hmask, BitVec.and_allOnes]

/-- Every row fixes `type` (R86). -/
theorem mask_covers_type : ∀ r ∈ opcodeTable, fieldType r.mask = BitVec.allOnes 4 := by decide

/-- A row fixes the field that its type dispatches on (R86). -/
theorem mask_covers_subOpcode : ∀ r ∈ opcodeTable,
    (fieldType r.value = 0x0 → fieldAddr12 r.mask = BitVec.allOnes 12) ∧
    (fieldType r.value ∈ ([0x5, 0x8, 0x9] : List (BitVec 4)) → fieldImm4 r.mask = BitVec.allOnes 4) ∧
    (fieldType r.value ∈ ([0xE, 0xF] : List (BitVec 4)) → fieldImm8 r.mask = BitVec.allOnes 8) := by decide

/-- The fixed bits of a row, taken as a word, lie in no class. -/
theorem not_inClass_value : ∀ r ∈ opcodeTable, ¬ InClass r.value e := by
  cases e <;> unfold InClass <;> decide

/-- A class of R87 tests only bits that every row of its type fixes, so a row that matches a word of the class would lie
in the class itself. -/
theorem InClass.value_of_matches (h : InClass w e) (hr : r ∈ opcodeTable) (hrw : r.matches w = true) :
    InClass r.value e := by
  have htype : fieldType w = fieldType r.value := field_eq_of_matches hrw (mask_covers_type r hr)
  obtain ⟨haddr, himm4, himm8⟩ := mask_covers_subOpcode r hr
  rw [← htype] at haddr himm4 himm8
  cases e with
  | truncated => exact h
  | ef0 =>
    obtain ⟨ht, hsub⟩ := h
    have hfield : fieldAddr12 w = fieldAddr12 r.value := field_eq_of_matches hrw (haddr ht)
    exact ⟨htype ▸ ht, hfield ▸ hsub⟩
  | ef5 | ef8 | ef9 =>
    obtain ⟨ht, hsub⟩ := h
    have hfield : fieldImm4 w = fieldImm4 r.value := field_eq_of_matches hrw (himm4 (by rw [ht]; decide))
    exact ⟨htype ▸ ht, hfield ▸ hsub⟩
  | efE | efF =>
    obtain ⟨ht, hsub⟩ := h
    have hfield : fieldImm8 w = fieldImm8 r.value := field_eq_of_matches hrw (himm8 (by rw [ht]; decide))
    exact ⟨htype ▸ ht, hfield ▸ hsub⟩

/-- No row matches a word of a class. -/
theorem InClass.not_matches (h : InClass w e) (hr : r ∈ opcodeTable) : ¬ r.matches w = true := fun hrw =>
  not_inClass_value r hr (h.value_of_matches hr hrw)

/-- The decoder rejects exactly the words of the classes, each under its label. -/
theorem decodeWord_eq_error_iff : decodeWord w = .error e ↔ InClass w e := by
  refine ⟨inClass_of_decodeWord, fun h => ?_⟩
  cases hd : decodeWord w with
  | ok i => exact absurd (matches_of_decodeWord hd) (h.not_matches (opcodeRow_mem i))
  | error e' => rw [(inClass_of_decodeWord hd).eq_classOfType, ← h.eq_classOfType]

/-- A word is unrecognised iff no row of R86 matches it (R92). -/
theorem decodeWord_error_iff_not_wordRecognised : (∃ e, decodeWord w = .error e) ↔ wordRecognised w = false := by
  rw [wordRecognised, List.any_eq_false]
  constructor
  · rintro ⟨e, h⟩ r hr
    exact (inClass_of_decodeWord h).not_matches hr
  · intro hnone
    cases hd : decodeWord w with
    | error e => exact ⟨e, rfl⟩
    | ok i => exact absurd (matches_of_decodeWord hd) (hnone _ (opcodeRow_mem i))

/-- Settles O4: a word that decodes is the encoding of its instruction and matches that row, two rows never match one
word, and a row never matches a word of a class. -/
theorem decoderAgreesWithOpcodeMap : Obligations.DecoderAgreesWithOpcodeMap :=
  ⟨fun _ _ => ⟨fun h => ⟨matches_of_decodeWord h, encode_of_decodeWord h⟩, fun ⟨_, h⟩ => h ▸ decodeWord_encode _⟩,
    fun _ _ _ => row_eq_of_matches, fun _ => decodeWord_error_iff_not_wordRecognised⟩

/-- Settles O5: the classes of R87 are `InClass`, label by label. -/
theorem unrecognisedWordsAreSixClasses : Obligations.UnrecognisedWordsAreSixClasses := fun _ =>
  ⟨decodeWord_eq_error_iff, decodeWord_eq_error_iff, decodeWord_eq_error_iff, decodeWord_eq_error_iff,
    decodeWord_eq_error_iff, decodeWord_eq_error_iff, decodeWord_eq_error_iff.mp⟩

/-- Settles O1: the decoder run on each of the twelve words. -/
theorem writtenWordsDecode : Obligations.WrittenWordsDecode := by
  unfold Obligations.WrittenWordsDecode
  decide

end Sys2Proof
end

section
/-! The step (R100 to R104): its phases, the cost it accrues, and what it leaves of the engine's own registers. -/

namespace Sys2Proof.Machine

variable {s t : State}

/-! ### The phases of a step -/

theorem accrueOutcome_none {c : Time} (h : t.keyWait = none) :
    accrueOutcome c (.next t) = .next { t with time := t.time + c } :=
  congrArg Host.Outcome.next (accrue_none h)

theorem accrueOutcome_waiting {c : Time} (h : t.keyWait ≠ none) : accrueOutcome c (.next t) = .next t := by
  obtain ⟨x, hx⟩ := Option.ne_none_iff_exists'.mp h
  exact congrArg Host.Outcome.next (accrue_some hx)

theorem decodeWord_of_decode_ok {hi lo : Byte} {i : Instr} (h : decode [hi, lo] = .ok (i, [])) :
    decodeWord (wordOfBytes hi lo) = .ok i := by
  rw [decode_two] at h
  split at h
  · cases h; assumption
  · cases h

theorem decodeWord_of_decode_error {hi lo : Byte} {e : Reject} (h : decode [hi, lo] = .error e) :
    decodeWord (wordOfBytes hi lo) = .error e := by
  rw [decode_two] at h
  split at h
  · cases h
  · cases h; assumption

/-- Settles O10: the fetch fits exactly below 0x0FFF; the word is then decoded, and the outcome of its instruction takes
the cost. -/
theorem stepRunsTheDecodedInstruction : Obligations.StepRunsTheDecodedInstruction := by
  refine fun s => ⟨step_faulted, fun hready => ⟨fun hpc => step_fetchFault hready (fetch_outside hpc), fun hpc => ?_⟩⟩
  have hfetch := fetch_fits hpc
  constructor
  · intro i hdec
    have hstep : step s = accrueOutcome (costOf s.cfg i) (exec i s.advancePc) :=
      step_instr hready hfetch (decodeWord_of_decode_ok hdec)
    refine ⟨fun t hexec hwait => ?_, fun t hexec hwait => ?_, fun f hexec => ?_⟩
    · exact hstep.trans ((congrArg _ hexec).trans (accrueOutcome_none hwait))
    · exact hstep.trans ((congrArg _ hexec).trans (accrueOutcome_waiting hwait))
    · exact hstep.trans (congrArg _ hexec)
  · intro e hdec
    rw [step_unrecognised hready hfetch (decodeWord_of_decode_error hdec)]
    exact congrArg Host.Outcome.next (unrecognisedWord_eq hready.2)

/-! ### The cost of a step -/

/-- `c` is the cost of the step from `s` (R103, D11): of the `Fx0A` whose wait goes on, of the instruction fetched, or
`COST_FAULT`. -/
def StepCost (s : State) (c : Time) : Prop :=
  (∃ x, s.keyWait = some x ∧ c = costOf s.cfg (.ldVxK x)) ∨
  (s.keyWait = none ∧ ∃ w, fetch s = .ok w ∧
    ((∃ i, decodeWord w = .ok i ∧ c = costOf s.cfg i) ∨ (wordRecognised w = false ∧ c = s.cfg.costFault)))

/-- A step does its work, which leaves `time`, `watchdog`, `faulted` and the parameters, and then accrues its cost. -/
theorem step_next_accrues (h : step s = .next t) :
    ∃ c u, StepCost s c ∧ t = accrue c u ∧
      u.time = s.time ∧ u.watchdog = s.watchdog ∧ u.faulted = s.faulted ∧ u.cfg = s.cfg := by
  obtain ⟨-, ⟨x, hwait, rfl⟩ | ⟨hwait, w, hfetch, ⟨i, u, hdec, hexec, rfl⟩ | ⟨e, hdec, rfl⟩⟩⟩ := step_next_cases h
  · have k : Kept s (awaitKey x s) := kept_awaitKey x s
    exact ⟨_, _, .inl ⟨x, hwait, rfl⟩, rfl, k.time, k.watchdog, k.faulted, k.cfg⟩
  · have k : Kept s.advancePc u := exec_kept hexec
    exact ⟨_, _, .inr ⟨hwait, w, hfetch, .inl ⟨i, hdec, rfl⟩⟩, rfl, k.time, k.watchdog, k.faulted, k.cfg⟩
  · have hword : wordRecognised w = false := decodeWord_error_iff_not_wordRecognised.mp ⟨e, hdec⟩
    exact ⟨_, _, .inr ⟨hwait, w, hfetch, .inr ⟨hword, rfl⟩⟩, rfl, rfl, rfl, rfl, rfl⟩

theorem step_keeps (h : step s = .next t) :
    t.watchdog = s.watchdog ∧ t.faulted = s.faulted ∧ t.cfg = s.cfg := by
  obtain ⟨c, u, -, rfl, -, hkeeps⟩ := step_next_accrues h
  rw [accrue_eq]
  exact hkeeps

/-- A step that completes adds its cost. -/
theorem step_time (h : step s = .next t) (hk : t.keyWait = none) : ∃ c, StepCost s c ∧ t.time = s.time + c := by
  obtain ⟨c, u, hcost, rfl, htime, -⟩ := step_next_accrues h
  have hu : u.keyWait = none := by rwa [accrue_eq] at hk
  exact ⟨c, hcost, by rw [accrue_none hu, ← htime]⟩

/-- A step whose `Fx0A` still waits adds nothing. -/
theorem step_time_of_waiting (h : step s = .next t) (hk : t.keyWait ≠ none) : t.time = s.time := by
  obtain ⟨c, u, -, rfl, htime, -⟩ := step_next_accrues h
  obtain ⟨x, hx⟩ := Option.ne_none_iff_exists'.mp hk
  have hu : u.keyWait = some x := by rwa [accrue_eq] at hx
  rw [accrue_some hu, htime]

/-! ### Costs are positive (R5, R277) -/

theorem costOf_pos {c : Config} (h : c.wellFormed = true) (i : Instr) : 1 ≤ (costOf c i).toNat := by
  simp only [Config.wellFormed, Config.costsPositive, Bool.and_eq_true, List.all_eq_true, decide_eq_true_eq] at h
  obtain ⟨⟨⟨-, hcosts⟩, -⟩, -⟩ := h
  exact hcosts _ (Vector.mem_toList_iff.mpr (Vector.getElem_mem i.row.isLt))

theorem costFault_pos {c : Config} (h : c.wellFormed = true) : 1 ≤ c.costFault.toNat := by
  simp only [Config.wellFormed, Config.faultCostPositive, Bool.and_eq_true, decide_eq_true_eq] at h
  obtain ⟨⟨-, hfault⟩, -⟩ := h
  exact hfault

/-- A bound that every cost of the configuration meets is met by the cost of a step. -/
theorem StepCost.of_forall {c : Time} {P : Time → Prop} (h : StepCost s c) (hi : ∀ i, P (costOf s.cfg i))
    (hf : P s.cfg.costFault) : P c := by
  obtain ⟨x, -, rfl⟩ | ⟨-, w, -, ⟨i, -, rfl⟩ | ⟨-, rfl⟩⟩ := h
  · exact hi _
  · exact hi i
  · exact hf

theorem StepCost.pos {c : Time} (h : StepCost s c) (hcfg : s.cfg.wellFormed = true) : 1 ≤ c.toNat :=
  h.of_forall (P := fun c => 1 ≤ c.toNat) (costOf_pos hcfg) (costFault_pos hcfg)

/-! ### `errors` and `paused` -/

theorem step_errors (h : step s = .next t) (hne : t.errors ≠ s.errors) :
    ∃ w, fetch s = .ok w ∧ wordRecognised w = false ∧ t.errors = s.errors + 1 := by
  obtain ⟨-, ⟨x, -, rfl⟩ | ⟨-, w, hfetch, ⟨i, u, -, hexec, rfl⟩ | ⟨e, hdec, rfl⟩⟩⟩ := step_next_cases h
  · rw [resumeKeyWait, accrue_eq] at hne
    exact absurd (kept_awaitKey x s).errors hne
  · rw [accrue_eq] at hne
    exact absurd (exec_kept hexec).errors hne
  · refine ⟨w, hfetch, decodeWord_error_iff_not_wordRecognised.mp ⟨e, hdec⟩, ?_⟩
    rw [unrecognisedWord, accrue_eq]
    rfl

/-- A jump changes `paused` only by setting it, when its target is the address it was fetched from (R123). -/
theorem execJp_paused_ne {nnn : Addr12} (h : execJp nnn s.advancePc = .next t) (hne : t.paused ≠ s.paused) :
    t.paused = true ∧ nnn.toNat = s.pc.toNat := by
  cases h
  have hself : isSelfJump nnn s.advancePc = true := by
    by_contra hno
    simp [hno] at hne
  have htarget : zextAddr nnn = s.pc := by simpa [isSelfJump] using hself
  exact ⟨by simp [hself], by rw [← htarget, zextAddr, BitVec.toNat_setWidth_of_le (by decide)]⟩

theorem step_paused (h : step s = .next t) (hne : t.paused ≠ s.paused) :
    t.paused = true ∧ ∃ nnn : Addr12, fetch s = .ok (formatA 0x1 nnn) ∧ nnn.toNat = s.pc.toNat := by
  obtain ⟨-, ⟨x, -, rfl⟩ | ⟨-, w, hfetch, ⟨i, u, hdec, hexec, rfl⟩ | ⟨e, -, rfl⟩⟩⟩ := step_next_cases h
  · rw [resumeKeyWait, accrue_eq, awaitKey_eq] at hne
    exact absurd rfl hne
  · rw [accrue_eq] at hne ⊢
    obtain ⟨nnn, rfl⟩ := exec_changes State.paused hexec (frameOf_paused i _ u) hne
    obtain ⟨hpaused, htarget⟩ := execJp_paused_ne hexec hne
    exact ⟨hpaused, nnn, by rw [hfetch, ← encode_of_decodeWord hdec]; rfl, htarget⟩
  · rw [unrecognisedWord, accrue_eq] at hne
    exact absurd rfl hne

/-- Settles O12: each clause by the lemma above about that field; the cost is positive because R5 admits no other. -/
theorem stepSummary : Obligations.StepSummary := by
  intro s t hinv h
  obtain ⟨hcfg, -, -⟩ := hinv
  obtain ⟨hwatchdog, hfaulted, hkeeps⟩ := step_keeps h
  refine ⟨hwatchdog, hfaulted, hkeeps, fun hk => ?_, step_time_of_waiting h, step_errors h, step_paused h⟩
  obtain ⟨c, hcost, htime⟩ := step_time h hk
  exact ⟨c, hcost.pos hcfg, by rw [htime, BitVec.toNat_add], hcost⟩

end Sys2Proof.Machine
end

section
/-! Which instructions complete and which take a `MemoryFault` (R57, R233, D6): it rests with their accesses alone. -/

namespace Sys2Proof.Machine

variable {s t : State} {i : Instr}

/-- Every byte that the instruction accesses beyond its fetch lies in memory. -/
def AccessFits (i : Instr) (s : State) : Prop :=
  (memoryAccess i s).2 = 0 ∨ Fits (memoryAccess i s).1 (memoryAccess i s).2

/-! ### The runs of bytes of the store instructions -/

theorem bcdDigits_length (b : Byte) : (bcdDigits b).length = 3 := rfl

theorem firstRegs_regCount_length (s : State) (x : Reg) : (s.firstRegs (regCount x)).length = regCount x := by
  have hcount : regCount x ≤ 16 := x.isLt
  rw [State.firstRegs, List.length_take, Vector.length_toList, Nat.min_eq_left hcount]

theorem orMemoryFault_storeBytes_fits {bs : List Byte} {a : Addr} {n : Nat} (hl : bs.length = n)
    (h : n = 0 ∨ Fits a n) : ∃ t, orMemoryFault (storeBytes bs a s) = .next t := by
  subst hl
  obtain ⟨t, ht⟩ := storeBytes_fits (s := s) (h.imp_left List.length_eq_zero_iff.mp)
  exact ⟨t, congrArg orMemoryFault ht⟩

theorem orMemoryFault_storeBytes_outside {bs : List Byte} {a : Addr} {n : Nat} (hl : bs.length = n)
    (h : ¬ (n = 0 ∨ Fits a n)) : orMemoryFault (storeBytes bs a s) = .fault (.memoryFault (firstOutside a)) := by
  subst hl
  obtain ⟨hne, hout⟩ := not_or.mp h
  exact congrArg orMemoryFault (storeBytes_outside (mt (congrArg List.length) hne) hout)

/-! ### The two ends of an instruction -/

theorem exec_completes (h : AccessFits i s) : ∃ t, exec i s = .next t := by
  cases i
  case ret =>
    have hf : Fits (s.sp - 2) 2 := h.resolve_left (by decide : (2 : Nat) ≠ 0)
    exact ⟨_, congrArg orMemoryFault (popToPc_fits hf)⟩
  case call =>
    have hf : Fits s.sp 2 := h.resolve_left (by decide : (2 : Nat) ≠ 0)
    simp [exec, execCall, pushWord_fits hf]
  case drw x y n =>
    have hload : loadBytes s (rowsDrawn n (drawRow (s.reg y))) s.ireg = .ok _ := loadBytes_fits h
    simp [exec, execDrw, hload]
  case ldB => exact orMemoryFault_storeBytes_fits (bcdDigits_length _) h
  case storeRegs x => exact orMemoryFault_storeBytes_fits (firstRegs_regCount_length s x) h
  case loadRegs x =>
    have hload : loadBytes s (regCount x) s.ireg = .ok _ := loadBytes_fits h
    simp [exec, execLoadRegs, hload]
  all_goals exact ⟨_, rfl⟩

theorem exec_faults (h : ¬ AccessFits i s) :
    exec i s = .fault (.memoryFault (firstOutside (memoryAccess i s).1)) := by
  obtain ⟨hne, hout⟩ := not_or.mp h
  cases i
  case ret => exact congrArg orMemoryFault (popToPc_outside hout)
  case call => simp [exec, execCall, pushWord_outside hout, memoryAccess]
  case drw x y n =>
    have hload : loadBytes s (rowsDrawn n (drawRow (s.reg y))) s.ireg = .error _ := loadBytes_outside hne hout
    simp [exec, execDrw, hload, memoryAccess]
  case ldB => exact orMemoryFault_storeBytes_outside (bcdDigits_length _) h
  case storeRegs x => exact orMemoryFault_storeBytes_outside (firstRegs_regCount_length s x) h
  case loadRegs x =>
    have hload : loadBytes s (regCount x) s.ireg = .error _ := loadBytes_outside hne hout
    simp [exec, execLoadRegs, hload, memoryAccess]
  all_goals exact absurd rfl hne

theorem exec_fault_iff : (∃ f, exec i s = .fault f) ↔ ¬ AccessFits i s := by
  refine ⟨fun ⟨f, hf⟩ hfits => ?_, fun h => ⟨_, exec_faults h⟩⟩
  obtain ⟨t, ht⟩ := exec_completes hfits
  rw [ht] at hf
  cases hf

/-- No access depends on the deadline of a run. -/
theorem accessFits_watchdog (w : Time) : AccessFits i { s with watchdog := w } ↔ AccessFits i s := by
  cases i <;> rfl

/-! ### The steps that fault -/

/-- Everything a step that faults can have done: nothing but a fetch, or the advance and an instruction. -/
theorem step_fault_cases {f : Fault} (h : step s = .fault f) :
    Ready s ∧ ((∃ a, fetch s = .error a) ∨
      ∃ w i, fetch s = .ok w ∧ decodeWord w = .ok i ∧ exec i s.advancePc = .fault f) := by
  cases hfaulted : s.faulted with
  | true => rw [step_faulted hfaulted] at h; cases h
  | false =>
    cases hwait : s.keyWait with
    | some x => rw [step_waiting hfaulted hwait] at h; cases h
    | none =>
      refine ⟨⟨hfaulted, hwait⟩, ?_⟩
      cases hfetch : fetch s with
      | error a => exact .inl ⟨a, rfl⟩
      | ok w =>
        cases hdec : decodeWord w with
        | error e => rw [step_unrecognised ⟨hfaulted, hwait⟩ hfetch hdec] at h; cases h
        | ok i =>
          rw [step_instr ⟨hfaulted, hwait⟩ hfetch hdec] at h
          refine .inr ⟨w, i, rfl, hdec, ?_⟩
          cases hexec : exec i s.advancePc with
          | fault g => rw [hexec] at h; cases h; rfl
          | next u => rw [hexec] at h; cases h
          | refused r => exact absurd hexec (exec_not_refused i _ r)

/-- A step that faults would fault under any other deadline. -/
theorem step_fault_watchdog {f : Fault} (w : Time) (h : step s = .fault f) :
    ∃ g, step { s with watchdog := w } = .fault g := by
  obtain ⟨hready, ⟨a, hfetch⟩ | ⟨word, i, hfetch, hdec, hexec⟩⟩ := step_fault_cases h
  · exact ⟨_, step_fetchFault hready hfetch⟩
  · have hfits : ¬ AccessFits i { s.advancePc with watchdog := w } :=
      mt (accessFits_watchdog w).mp (exec_fault_iff.mp ⟨f, hexec⟩)
    have hstep : step { s with watchdog := w } =
        accrueOutcome (costOf s.cfg i) (exec i { s.advancePc with watchdog := w }) := step_instr hready hfetch hdec
    exact ⟨_, hstep.trans (congrArg (accrueOutcome _) (exec_faults hfits))⟩

end Sys2Proof.Machine
end

section
/-! The commands `Step` and `Run` (R105 to R111): what one round of the run loop does, and how a run ends. -/

namespace Sys2Proof.Machine

variable {s t : State}

/-! ### The loop test -/

theorem runGoesOn_iff :
    runGoesOn s = true ↔ s.paused = false ∧ s.time.toNat < s.watchdog.toNat ∧ s.faulted = false := by
  simp [runGoesOn, BitVec.lt_def, and_assoc]

theorem runGoesOn_eq_false_iff :
    runGoesOn s = false ↔ s.paused = true ∨ s.watchdog.toNat ≤ s.time.toNat ∨ s.faulted = true := by
  rw [← Bool.not_eq_true, runGoesOn_iff]
  simp only [not_and_or, Bool.not_eq_false, not_lt]

/-! ### The end of a run -/

theorem finishRun_faulted (s : State) : (finishRun s).faulted = s.faulted := by unfold finishRun; split <;> rfl

theorem finishRun_of_not_faulted (hf : s.faulted = false) : finishRun s = ioSync s.time s := by rw [finishRun, hf]; rfl

/-! ### One round of the loop -/

section
variable (n : Nat)

theorem runLoop_over (h : runGoesOn s = false) (hf : s.faulted = false) :
    runLoop n s = .done (ioSync s.time s) := by
  rw [runLoop_stop n h, finishRun_of_not_faulted hf]

/-- On a faulted engine a run is over, and makes no sync. -/
theorem runLoop_faulted (hf : s.faulted = true) : runLoop n s = .done s := by
  rw [runLoop_stop n (runGoesOn_eq_false_iff.mpr (.inr (.inr hf))), finishRun, if_pos hf]

theorem runLoop_next (h : runGoesOn s = true) (hstep : step s = .next t) (hk : t.keyWait = none) :
    runLoop (n + 1) s = runLoop n t := by
  rw [runLoop, if_pos h, engineStep_done hstep hk]

theorem runLoop_blocked (h : runGoesOn s = true) (hstep : step s = .next t) (hk : t.keyWait ≠ none) :
    runLoop (n + 1) s = .blocked t := by
  obtain ⟨x, hx⟩ := Option.ne_none_iff_exists'.mp hk
  rw [runLoop, if_pos h, engineStep_blocked hstep hx]

theorem runLoop_fault {f : Fault} (h : runGoesOn s = true) (hstep : step s = .fault f) :
    runLoop (n + 1) s = .done (afterMemoryFault s) := by
  obtain ⟨hfaulted, -⟩ := afterMemoryFault_spec s
  rw [runLoop, if_pos h, engineStep_fault hstep]
  exact runLoop_faulted n hfaulted

end

/-- The ways a step of an engine that is not faulted can end. -/
theorem step_cases (hf : s.faulted = false) :
    (∃ t, step s = .next t ∧ t.keyWait = none) ∨ (∃ t, step s = .next t ∧ t.keyWait ≠ none) ∨
      ∃ f, step s = .fault f := by
  cases h : step s with
  | next t => by_cases hk : t.keyWait = none <;> simp [hk]
  | fault f => exact .inr (.inr ⟨f, rfl⟩)
  | refused r => exact absurd h (step_not_refused hf r)

/-- A run that ends in `t` within `n` steps from `s`: its loop test fails, or its first step faults, or its first step
completes and the rest of the run follows. -/
inductive RunEnds : Nat → State → State → Prop where
  | stop {n : Nat} {s : State} (hgo : runGoesOn s = false) : RunEnds n s (finishRun s)
  | fault {n : Nat} {s : State} {f : Fault} (hgo : runGoesOn s = true) (hstep : step s = .fault f) :
    RunEnds (n + 1) s (afterMemoryFault s)
  | next {n : Nat} {s t v : State} (hgo : runGoesOn s = true) (hstep : step s = .next v) (hk : v.keyWait = none)
      (rest : RunEnds n v t) : RunEnds (n + 1) s t

theorem runEnds_of_runLoop_done {n : Nat} (h : runLoop n s = .done t) : RunEnds n s t := by
  induction n generalizing s with
  | zero =>
    rw [runLoop] at h
    split at h
    · cases h
    · cases h; exact .stop (Bool.eq_false_iff.mpr ‹_›)
  | succ n ih =>
    cases hgo : runGoesOn s with
    | false => rw [runLoop_stop _ hgo] at h; cases h; exact .stop hgo
    | true =>
      obtain ⟨-, -, hf⟩ := runGoesOn_iff.mp hgo
      obtain ⟨v, hstep, hk⟩ | ⟨v, hstep, hk⟩ | ⟨f, hstep⟩ := step_cases hf
      · exact .next hgo hstep hk (ih (runLoop_next n hgo hstep hk ▸ h))
      · rw [runLoop_blocked n hgo hstep hk] at h; cases h
      · rw [runLoop_fault n hgo hstep] at h; cases h; exact .fault hgo hstep

/-! ### The commands enter it -/

theorem stepCommand_eq (h : s.keyWait = none) : stepCommand s = engineStep s := by
  simp [stepCommand, commandInProgress_none h]

theorem runCommand_eq (n : Nat) (limit : Time) (h : s.keyWait = none) :
    runCommand n limit s = runLoop n { s with watchdog := s.time + limit } := by
  simp [runCommand, commandInProgress_none h]

theorem stepCommand_done (h : s.keyWait = none) (hstep : step s = .next t) (hk : t.keyWait = none) :
    stepCommand s = .done t := (stepCommand_eq h).trans (engineStep_done hstep hk)

theorem stepCommand_blocked (h : s.keyWait = none) (hstep : step s = .next t) (hk : t.keyWait ≠ none) :
    stepCommand s = .blocked t := by
  obtain ⟨x, hx⟩ := Option.ne_none_iff_exists'.mp hk
  exact (stepCommand_eq h).trans (engineStep_blocked hstep hx)

/-- Settles O58: the clauses are the lemmas above, one for each. -/
theorem runLoopMakesItsSteps : Obligations.RunLoopMakesItsSteps := fun _ n =>
  ⟨runGoesOn_iff, fun _ => runLoop_next n, fun _ => runLoop_blocked n, runLoop_over n, fun _ => runLoop_faulted n,
    runCommand_eq n, fun _ => stepCommand_done, fun _ => stepCommand_blocked⟩

/-- Settles O55: `paused` fails the loop test, and `Step` does not ask for it. -/
theorem pausedRunExecutesNothing : Obligations.PausedRunExecutesNothing := by
  intro s limit n hready hpaused
  obtain ⟨hfaulted, hwait⟩ := hready
  exact ⟨(runCommand_eq n limit hwait).trans (runLoop_over n (runGoesOn_eq_false_iff.mpr (.inl hpaused)) hfaulted),
    fun t => stepCommand_done hwait⟩

/-- Settles O54: a step that faults under one deadline faults under the new one of `Run` (`step_fault_watchdog`), and what
is certain afterwards is `afterMemoryFault_spec`. -/
theorem faultedEngineIsStopped : Obligations.FaultedEngineIsStopped := by
  intro s limit n hwait
  constructor
  · intro hfaulted
    have hrefused := step_faulted hfaulted
    exact ⟨hrefused, (stepCommand_eq hwait).trans (engineStep_refused hrefused),
      (runCommand_eq n limit hwait).trans (runLoop_faulted n hfaulted)⟩
  · intro f hstep
    constructor
    · obtain ⟨hfaulted, htime, herrors, htrace, -⟩ := afterMemoryFault_spec s
      exact ⟨_, (stepCommand_eq hwait).trans (engineStep_fault hstep), hfaulted, htime, herrors, htrace⟩
    · intro hpaused hlt
      obtain ⟨⟨hfaulted, -⟩, -⟩ := step_fault_cases hstep
      have hgo : runGoesOn { s with watchdog := s.time + limit } = true := runGoesOn_iff.mpr ⟨hpaused, hlt, hfaulted⟩
      obtain ⟨g, hfault⟩ := step_fault_watchdog (s.time + limit) hstep
      obtain ⟨hfaulted', htime, herrors, htrace, hwatchdog, -⟩ :=
        afterMemoryFault_spec { s with watchdog := s.time + limit }
      exact ⟨_, (runCommand_eq (n + 1) limit hwait).trans (runLoop_fault n hgo hfault), hfaulted', htime, herrors,
        htrace, hwatchdog⟩

/-! ### A run as a chain of steps -/

/-- The states of a run that makes `k` completed steps from `s`, each where the loop test held, and then stops. -/
def StepChain (s : State) (k : Nat) (u : Nat → State) : Prop :=
  u 0 = s ∧ (∀ j, j < k → runGoesOn (u j) = true ∧ step (u j) = .next (u (j + 1)) ∧ (u (j + 1)).keyWait = none) ∧
    runGoesOn (u k) = false

theorem StepChain.stop (h : runGoesOn s = false) : StepChain s 0 fun _ => s :=
  ⟨rfl, fun _ hj => absurd hj (Nat.not_lt_zero _), h⟩

theorem StepChain.cons {v : State} {k : Nat} {u : Nat → State} (hgo : runGoesOn s = true) (hstep : step s = .next v)
    (hk : v.keyWait = none) (h : StepChain v k u) : StepChain s (k + 1) (Stream'.cons s u) := by
  obtain ⟨rfl, hsteps, hstop⟩ := h
  refine ⟨rfl, fun j hj => ?_, hstop⟩
  cases j with
  | zero => exact ⟨hgo, hstep, hk⟩
  | succ j => exact hsteps j (Nat.lt_of_succ_lt_succ hj)

theorem RunEnds.stepChain {n : Nat} (h : RunEnds n s t) (hf : t.faulted = false) :
    ∃ k u, k ≤ n ∧ StepChain s k u ∧ t = ioSync (u k).time (u k) := by
  induction h with
  | @stop n s hgo =>
    rw [finishRun_faulted] at hf
    exact ⟨0, _, Nat.zero_le n, .stop hgo, finishRun_of_not_faulted hf⟩
  | @fault n s f hgo hstep =>
    obtain ⟨hfaulted, -⟩ := afterMemoryFault_spec s
    exact absurd hf (by simp [hfaulted])
  | next hgo hstep hk rest ih =>
    obtain ⟨k, u, hle, hchain, hend⟩ := ih hf
    exact ⟨k + 1, _, Nat.succ_le_succ hle, hchain.cons hgo hstep hk, hend⟩

/-- Settles O59: the steps of the run, put in a row (`RunEnds.stepChain`). -/
theorem runIsItsStepsThenSync : Obligations.RunIsItsStepsThenSync := by
  intro s t n limit hwait hrun hf
  rw [runCommand_eq n limit hwait] at hrun
  obtain ⟨k, u, hle, ⟨hfirst, hsteps, hstop⟩, hend⟩ := (runEnds_of_runLoop_done hrun).stepChain hf
  exact ⟨k, u, hle, hfirst, hsteps, hstop, hend⟩

end Sys2Proof.Machine
end

section
/-! The watchdog bounds a run (R107, R108, R277, D27): how far past the deadline it can end, and after how many steps. -/

namespace Sys2Proof.Machine

variable {s t : State} {m : Nat}

/-- The bounds of R107 and R108 apply: no cost of the admitted configuration is above `m`, and a step that begins before
the deadline does not wrap `time` (D27). -/
structure NoWrap (m : Nat) (s : State) : Prop where
  inv : Inv s
  costOf_le : ∀ i, (costOf s.cfg i).toNat ≤ m
  costFault_le : s.cfg.costFault.toNat ≤ m
  room : s.watchdog.toNat + m < 2 ^ 64

theorem NoWrap.pos (h : NoWrap m s) : 0 < m := (costFault_pos h.inv.1).trans h.costFault_le

theorem NoWrap.next (h : NoWrap m s) (hstep : step s = .next t) : NoWrap m t := by
  obtain ⟨hwatchdog, -, hcfg⟩ := step_keeps hstep
  exact ⟨everyStepKeepsInvariant s t h.inv hstep, hcfg ▸ h.costOf_le, hcfg ▸ h.costFault_le, hwatchdog ▸ h.room⟩

/-- A step of a run takes at least 1 and at most `m` units of `time`. -/
theorem NoWrap.time_bounds (h : NoWrap m s) (hgo : runGoesOn s = true) (hstep : step s = .next t)
    (hk : t.keyWait = none) : s.time.toNat < t.time.toNat ∧ t.time.toNat ≤ s.time.toNat + m := by
  obtain ⟨-, hbefore, -⟩ := runGoesOn_iff.mp hgo
  obtain ⟨c, hcost, htime⟩ := step_time hstep hk
  have hpos : 1 ≤ c.toNat := hcost.pos h.inv.1
  have hle : c.toNat ≤ m := hcost.of_forall (P := fun c => c.toNat ≤ m) h.costOf_le h.costFault_le
  have hroom := h.room
  have hsum : t.time.toNat = s.time.toNat + c.toNat := by
    rw [htime, BitVec.toNat_add, Nat.mod_eq_of_lt (by omega)]
  omega

/-- Where `time` has room, the deadline of a run is `limit` after its start. -/
theorem deadline_toNat {limit : Time} (h : s.time.toNat + limit.toNat + m < 2 ^ 64) :
    (s.time + limit).toNat = s.time.toNat + limit.toNat := by
  rw [BitVec.toNat_add, Nat.mod_eq_of_lt (by omega)]

/-! ### The overshoot -/

theorem RunEnds.time_bounds {n : Nat} (h : RunEnds n s t) (hn : NoWrap m s)
    (hlt : s.time.toNat < s.watchdog.toNat + m) :
    t.time.toNat < s.watchdog.toNat + m ∧ s.time.toNat ≤ t.time.toNat := by
  induction h with
  | stop => rw [finishRun_time]; exact ⟨hlt, le_rfl⟩
  | @fault n s f hgo hstep =>
    obtain ⟨-, htime, -⟩ := afterMemoryFault_spec s
    rw [htime]
    exact ⟨hlt, le_rfl⟩
  | next hgo hstep hk rest ih =>
    obtain ⟨-, hbefore, -⟩ := runGoesOn_iff.mp hgo
    obtain ⟨hwatchdog, -⟩ := step_keeps hstep
    obtain ⟨hgrows, hcost⟩ := hn.time_bounds hgo hstep hk
    obtain ⟨hend, hrest⟩ := ih (hn.next hstep) (by rw [hwatchdog]; omega)
    rw [hwatchdog] at hend
    exact ⟨hend, hgrows.le.trans hrest⟩

/-- Settles O56: the loop test fails at the deadline; the last step begins before it and costs at most `m`, by induction
on the run (`RunEnds.time_bounds`). -/
theorem runStopsAtTheWatchdog : Obligations.RunStopsAtTheWatchdog := by
  constructor
  · intro s n hfaulted hpast
    exact runLoop_over n (runGoesOn_eq_false_iff.mpr (.inr (.inl hpast))) hfaulted
  · intro s t n m limit hinv hready hcosts hfault hroom hrun
    rw [runCommand_eq n limit hready.2] at hrun
    have hdeadline := deadline_toNat hroom
    have hn : NoWrap m { s with watchdog := s.time + limit } := ⟨hinv, hcosts, hfault, hdeadline ▸ hroom⟩
    have hm := hn.pos
    have hbounds := (runEnds_of_runLoop_done hrun).time_bounds hn (by simp only [hdeadline]; omega)
    rwa [hdeadline] at hbounds

/-! ### The number of steps -/

/-- A step whose `Fx0A` waits has found no answer of the environment (R39). -/
theorem keys_of_step_waiting (h : step s = .next t) (hk : t.keyWait ≠ none) : t.keys = [] := by
  obtain ⟨-, ⟨x, -, rfl⟩ | ⟨hwait, w, -, ⟨i, u, -, hexec, rfl⟩ | ⟨e, -, rfl⟩⟩⟩ := step_next_cases h
  · rw [resumeKeyWait, accrue_eq] at hk ⊢
    obtain ⟨hkeys, ha⟩ | ⟨k, rest, -, ha⟩ := awaitKey_cases x s
    · rw [ha]; exact hkeys
    · rw [ha] at hk; exact absurd rfl hk
  · rw [accrue_eq] at hk ⊢
    obtain hsame | ⟨hnone, -⟩ | ⟨hkeys, -⟩ := exec_keyWait hexec
    · exact absurd (hsame.trans hwait) hk
    · exact absurd hnone hk
    · exact hkeys
  · rw [unrecognisedWord, accrue_eq] at hk
    exact absurd hwait hk

/-- Every completed step brings `time` nearer to the deadline, so as many steps as are left to it end the run. -/
theorem runLoop_ends {n : Nat} (h : NoWrap m s) (hn : s.watchdog.toNat ≤ s.time.toNat + n) :
    (∃ t, runLoop n s = .done t) ∨ (∃ t x, runLoop n s = .blocked t ∧ t.keyWait = some x ∧ t.keys = []) := by
  induction n generalizing s with
  | zero => exact .inl ⟨_, runLoop_stop 0 (runGoesOn_eq_false_iff.mpr (.inr (.inl hn)))⟩
  | succ n ih =>
    cases hgo : runGoesOn s with
    | false => exact .inl ⟨_, runLoop_stop _ hgo⟩
    | true =>
      obtain ⟨-, -, hf⟩ := runGoesOn_iff.mp hgo
      obtain ⟨v, hstep, hk⟩ | ⟨v, hstep, hk⟩ | ⟨f, hstep⟩ := step_cases hf
      · obtain ⟨hwatchdog, -⟩ := step_keeps hstep
        obtain ⟨hgrows, -⟩ := h.time_bounds hgo hstep hk
        rw [runLoop_next n hgo hstep hk]
        exact ih (h.next hstep) (by rw [hwatchdog]; omega)
      · obtain ⟨x, hx⟩ := Option.ne_none_iff_exists'.mp hk
        exact .inr ⟨v, x, runLoop_blocked n hgo hstep hk, hx, keys_of_step_waiting hstep hk⟩
      · exact .inl ⟨_, runLoop_fault n hgo hstep⟩

/-- Settles O57: the deadline is `limit` units away and every step takes at least one (`runLoop_ends`). -/
theorem runEndsWithinLimitSteps : Obligations.RunEndsWithinLimitSteps := by
  intro s limit m hinv hready hcosts hfault hroom
  have hdeadline := deadline_toNat hroom
  rw [runCommand_eq limit.toNat limit hready.2]
  exact runLoop_ends ⟨hinv, hcosts, hfault, hdeadline ▸ hroom⟩ hdeadline.le

end Sys2Proof.Machine
end

section
/-! Control transfer (R120 to R130): where each instruction leaves `pc`, what the stack instructions do to the stack,
and that nothing else changes. -/

namespace Sys2Proof.Machine

variable {s t : State}

/-! ### The word of an instruction, and its operands at 16 bits -/

theorem encodedAs_encode (i : Instr) : EncodedAs i (encode i) := ⟨rfl, decodeWord_encode i⟩

theorem zextAddr_toNat (nnn : Addr12) : (zextAddr nnn).toNat = nnn.toNat :=
  BitVec.toNat_setWidth_of_le (by decide)

theorem zextByte_toNat (b : Byte) : (zextByte b).toNat = b.toNat := BitVec.toNat_setWidth_of_le (by decide)

/-! ### Jumps -/

theorem isSelfJump_iff {nnn : Addr12} : isSelfJump nnn s = true ↔ nnn.toNat = (s.pc - 2).toNat := by
  rw [isSelfJump, beq_iff_eq, ← BitVec.toNat_inj, zextAddr_toNat]

theorem exec_jp_selfJump {nnn : Addr12} (h : isSelfJump nnn s = true) :
    exec (.jp nnn) s = .next { s with paused := true, pc := zextAddr nnn } := by
  simp [exec, execJp, h]

/-- Settles O18: the self-jump test is `isSelfJump_iff`, and `paused` is set by it alone. -/
theorem jumpGoesToTarget : Obligations.JumpGoesToTarget := by
  intro nnn s
  refine ⟨encodedAs_encode (.jp nnn), _, rfl, zextAddr_toNat nnn, fun hself => ?_, fun hother => ?_, rfl,
    fun _ _ => rfl, fun _ => rfl⟩
  · simp [isSelfJump_iff.mpr hself]
  · simp [Bool.eq_false_iff.mpr (mt isSelfJump_iff.mp hother)]

/-- A self-jump puts `pc` back to where it was before the advance, so the step changes `paused` and `time` only (D7). -/
theorem step_selfJump {nnn : Addr12} (hready : Ready s) (hfetch : fetch s = .ok (formatA 0x1 nnn))
    (hself : nnn.toNat = s.pc.toNat) :
    step s = .next { s with paused := true, time := s.time + costOf s.cfg (.jp nnn) } := by
  have hpc : zextAddr nnn = s.pc := BitVec.eq_of_toNat_eq ((zextAddr_toNat nnn).trans hself)
  have htest : isSelfJump nnn s.advancePc = true := isSelfJump_iff.mpr (by simp [hself])
  have hexec : exec (.jp nnn) s.advancePc = .next { s with paused := true } := by
    rw [exec_jp_selfJump htest, hpc]; rfl
  rw [step_instr hready hfetch (decodeWord_encode (.jp nnn)), hexec]
  exact accrueOutcome_none hready.2

/-- Settles O19: the step leaves all that `step_selfJump` asks for, so it applies again. -/
theorem selfJumpPausesInPlace : Obligations.SelfJumpPausesInPlace := fun _ _ hready hfetch hself =>
  ⟨step_selfJump hready hfetch hself, step_selfJump hready hfetch hself⟩

/-- Settles O24: `V0` is below 256 and `nnn` below 4096, so their 16-bit sum does not wrap. -/
theorem jumpWithOffset : Obligations.JumpWithOffset := by
  intro nnn s
  refine ⟨encodedAs_encode (.jpV0 nnn), _, rfl, ?_, rfl, rfl, fun _ _ => rfl, fun _ => rfl⟩
  have hbyte := (s.reg 0).isLt
  have haddr := nnn.isLt
  rw [BitVec.toNat_add, zextByte_toNat, zextAddr_toNat, Nat.mod_eq_of_lt (by omega)]

/-! ### Skips -/

theorem skipIf_onlyPc (c : Bool) (s : State) : OnlyPc s (skipIf c s) := by
  rw [skipIf_eq]
  exact ⟨rfl, fun _ _ => rfl, fun _ => rfl⟩

/-- A skip with test `c` is taken where `P` holds and not taken where `Q` holds (R120). -/
theorem next_skipIf_spec {c : Bool} {P Q : Prop} (s : State) (htaken : P → c = true) (hnot : Q → c = false) :
    ∃ t, (.next (skipIf c s) : Result) = .next t ∧ (P → t.pc = s.pc + 2) ∧ (Q → t.pc = s.pc) ∧ OnlyPc s t :=
  ⟨_, rfl, fun h => by rw [htaken h]; rfl, fun h => by rw [hnot h]; rfl, skipIf_onlyPc c s⟩

theorem next_skipIf_beq (a b : Byte) (s : State) :
    ∃ t, (.next (skipIf (a == b) s) : Result) = .next t ∧
      (a = b → t.pc = s.pc + 2) ∧ (a ≠ b → t.pc = s.pc) ∧ OnlyPc s t :=
  next_skipIf_spec s beq_iff_eq.mpr beq_false_of_ne

theorem next_skipIf_bne (a b : Byte) (s : State) :
    ∃ t, (.next (skipIf (a != b) s) : Result) = .next t ∧
      (a ≠ b → t.pc = s.pc + 2) ∧ (a = b → t.pc = s.pc) ∧ OnlyPc s t :=
  next_skipIf_spec s bne_iff_ne.mpr bne_eq_false_iff_eq.mpr

/-- Settles O22: both are a skip on the comparison of `Vx` with the immediate. -/
theorem immediateSkips : Obligations.ImmediateSkips := fun x kk s =>
  ⟨encodedAs_encode (.seImm x kk), encodedAs_encode (.sneImm x kk), next_skipIf_beq (s.reg x) kk s,
    next_skipIf_bne (s.reg x) kk s⟩

/-- Settles O23: both are a skip on the comparison of `Vx` with `Vy`; the words with another sub-mode are the classes
`ef5` and `ef9` of R87. -/
theorem registerSkips : Obligations.RegisterSkips := by
  intro x y s
  refine ⟨encodedAs_encode (.seReg x y), encodedAs_encode (.sneReg x y), next_skipIf_beq (s.reg x) (s.reg y) s,
    next_skipIf_bne (s.reg x) (s.reg y) s, fun n hn hready hfetch => ?_⟩
  have hsub (ty : BitVec 4) : fieldImm4 (formatR ty x y n) ≠ 0 := by rwa [fieldImm4_formatR]
  rcases hfetch with h5 | h9
  · exact step_unrecognised hready h5 (decodeWord_eq_error_iff (e := .ef5).mpr ⟨fieldType_formatR .., hsub _⟩)
  · exact step_unrecognised hready h9 (decodeWord_eq_error_iff (e := .ef9).mpr ⟨fieldType_formatR .., hsub _⟩)

/-! ### The stack instructions -/

theorem exec_ret_fits (h : Fits (s.sp - 2) 2) :
    exec .ret s = .next { s with
      sp := s.sp - 2
      pc := wordOfBytes (s.byteAt (s.sp - 2).toNat) (s.byteAt ((s.sp - 2).toNat + 1)) } :=
  congrArg orMemoryFault (popToPc_fits h)

/-- Settles O17: the two ends of the pop. -/
theorem retPopsReturnAddress : Obligations.RetPopsReturnAddress :=
  ⟨encodedAs_encode .ret, fun _ =>
    ⟨fun hfit => ⟨_, exec_ret_fits hfit, rfl, wordOfBytes_toNat _ _, rfl, fun _ _ => rfl, fun _ => rfl⟩,
      fun hout => congrArg orMemoryFault (popToPc_outside hout)⟩⟩

theorem pushWord_ok {w : Word} (h : pushWord w s = .ok t) :
    ∃ u, memWrite16 s s.sp w = .ok u ∧ t = { u with sp := s.sp + 2 } := by
  unfold pushWord at h
  split at h
  · cases h; exact ⟨_, ‹_›, rfl⟩
  · cases h

/-- A call that completes has stored the advanced `pc` at `sp` (R124, D4). -/
theorem exec_call_next {nnn : Addr12} (h : exec (.call nnn) s = .next t) :
    ∃ u, memWrite16 s s.sp s.pc = .ok u ∧ t = { u with sp := s.sp + 2, pc := zextAddr nnn } := by
  obtain ⟨v, hpush, rfl⟩ := execCall_next h
  obtain ⟨u, hwrite, rfl⟩ := pushWord_ok hpush
  exact ⟨u, hwrite, rfl⟩

theorem exec_call_bytes {nnn : Addr12} (hs : MemoryOk s) (h : exec (.call nnn) s = .next t) :
    t.byteAt s.sp.toNat = highByte s.pc ∧ t.byteAt (s.sp.toNat + 1) = lowByte s.pc := by
  obtain ⟨u, hwrite, rfl⟩ := exec_call_next h
  have hhigh : u.byteAt s.sp.toNat = highByte s.pc := memWrite16_byteAt_high hs hwrite
  have hlow : u.byteAt (s.sp.toNat + 1) = lowByte s.pc := memWrite16_byteAt_low hs hwrite
  exact ⟨hhigh, hlow⟩

/-- Settles O20: what a completed call leaves is what its 16-bit write leaves (`exec_call_next`); it completes exactly
when its access fits. -/
theorem callPushesReturnAddress : Obligations.CallPushesReturnAddress := by
  intro nnn s
  refine ⟨encodedAs_encode (.call nnn), fun hs hfit => ?_,
    fun hout => exec_faults (i := .call nnn) (not_or.mpr ⟨two_ne_zero, hout⟩)⟩
  obtain ⟨t, hexec⟩ := exec_completes (i := .call nnn) (s := s) (.inr hfit)
  have hframe := exec_eq_frameOf hexec
  have hregs : KeepsRegsBut [] s t := fun _ _ => exec_reg_of_not_writesReg hexec id
  obtain ⟨hhigh, hlow⟩ := exec_call_bytes hs hexec
  obtain ⟨u, hwrite, rfl⟩ := exec_call_next hexec
  obtain ⟨-, -, houtside⟩ := memWrite16_onlyStores hwrite
  exact ⟨_, hexec, rfl, zextAddr_toNat nnn, by rw [hhigh, highByte_toNat], by rw [hlow, lowByte_toNat], hframe, hregs,
    houtside⟩

/-- Settles O21: `RET` comes back to the `sp` of the call and reads there the two bytes of its `pc`. -/
theorem callThenRetReturns : Obligations.CallThenRetReturns := by
  intro nnn s t u hs hcall hsp hhigh hlow
  obtain ⟨hpushedHigh, hpushedLow⟩ := exec_call_bytes hs hcall
  obtain ⟨v, hwrite, rfl⟩ := exec_call_next hcall
  obtain ⟨hfit, -⟩ := memWrite16_ok hwrite
  have hback : u.sp - 2 = s.sp := by rw [hsp]; exact BitVec.add_sub_cancel _ _
  have hret := exec_ret_fits (s := u) (hback ▸ fits_two_iff.mpr hfit)
  rw [hback, hhigh, hlow, hpushedHigh, hpushedLow, wordOfBytes_bytes] at hret
  exact ⟨_, hret, rfl, rfl⟩

end Sys2Proof.Machine
end

section
/-! Register load, arithmetic, logic, shift and random (R140 to R153): the value and the flag of each operation as
numbers, and that it changes its destination, and `VF` where it writes a flag, alone. -/

namespace Sys2Proof.Machine

variable (s : State)

/-! ### The flags as numbers (R24, R140) -/

theorem flagByte_toNat (f : Bool) : (flagByte f).toNat = f.toNat := by cases f <;> rfl

theorem carryOut_of_gt {a b : Byte} (h : 255 < a.toNat + b.toNat) : carryOut a b = true := decide_eq_true h

theorem carryOut_of_le {a b : Byte} (h : a.toNat + b.toNat ≤ 255) : carryOut a b = false :=
  decide_eq_false h.not_gt

theorem notBorrow_self (eqFlag : Bool) (a : Byte) : notBorrow eqFlag a a = eqFlag := if_pos rfl

theorem notBorrow_of_ne (eqFlag : Bool) {a b : Byte} (h : a.toNat ≠ b.toNat) :
    notBorrow eqFlag a b = decide (b.toNat < a.toNat) :=
  if_neg fun hab => h (congrArg BitVec.toNat hab)

theorem shiftOutRight_toNat (a : Byte) : (shiftOutRight a).toNat = a.toNat % 2 := by
  rw [shiftOutRight, BitVec.getLsbD, Nat.toNat_testBit, pow_zero, Nat.div_one]

/-- Bit 7 is the highest of a byte, so nothing stands above it. -/
theorem shiftOutLeft_toNat (a : Byte) : (shiftOutLeft a).toNat = a.toNat / 128 := by
  have hlt := a.isLt
  rw [shiftOutLeft, BitVec.getLsbD, Nat.toNat_testBit]
  omega

/-! ### A result without a flag -/

theorem setReg_onlyRegs (x : Reg) (b : Byte) : OnlyRegs [x] s (s.setReg x b) :=
  ⟨rfl, fun _ hy => setReg_reg_ne s b (List.ne_of_not_mem_cons hy), fun _ => rfl⟩

theorem next_setReg (x : Reg) (b : Byte) :
    ∃ t, (.next (s.setReg x b) : Result) = .next t ∧ t.reg x = b ∧ OnlyRegs [x] s t :=
  ⟨_, rfl, setReg_reg_same s x b, setReg_onlyRegs s x b⟩

/-- A bitwise operation: the result is given bit by bit. -/
theorem next_setReg_bits (x : Reg) {b : Byte} {bit : Nat → Bool} (h : ∀ j, b.getLsbD j = bit j) :
    ∃ t, (.next (s.setReg x b) : Result) = .next t ∧ OnlyRegs [x] s t ∧ ∀ j, (t.reg x).getLsbD j = bit j :=
  ⟨_, rfl, setReg_onlyRegs s x b, fun j => by rw [setReg_reg_same, h]⟩

/-- Settles O25: both write one register, with the immediate or with `Vy`. -/
theorem loadsIntoRegister : Obligations.LoadsIntoRegister := fun x y kk s =>
  ⟨encodedAs_encode (.ldImm x kk), encodedAs_encode (.ldReg x y), next_setReg s x kk, next_setReg s x (s.reg y)⟩

/-- Settles O26: each writes one register, with the sum or with the bits of the logic operation. -/
theorem addImmediateAndLogicLeaveFlag : Obligations.AddImmediateAndLogicLeaveFlag := by
  intro x y kk s
  refine ⟨⟨_, rfl, ?_, setReg_onlyRegs s x _⟩, next_setReg_bits s x fun _ => BitVec.getLsbD_or,
    next_setReg_bits s x fun _ => BitVec.getLsbD_and, next_setReg_bits s x fun _ => BitVec.getLsbD_xor⟩
  rw [setReg_reg_same, BitVec.toNat_add]

/-- Settles O30: the draw moves `draws` on, then one register is written; AND is bit by bit. -/
theorem randomIsMaskedDraw : Obligations.RandomIsMaskedDraw := by
  intro x kk s
  obtain ⟨-, hregs, hmem⟩ := setReg_onlyRegs (drawRandom s) x (s.randomDraw &&& kk)
  refine ⟨_, rfl, fun j => ?_, rfl, rfl, hregs, hmem⟩
  rw [setReg_reg_same, BitVec.getLsbD_and, Bool.and_comm, State.randomDraw]

/-! ### A result and its flag (R141) -/

theorem setRegFlag_onlyRegs (x : Reg) (b : Byte) (f : Bool) : OnlyRegs [x, 15] s (setRegFlag x b f s) := by
  refine ⟨setRegFlag_eq s x b f, fun y hy => ?_, fun _ => rfl⟩
  obtain ⟨hx, hf⟩ : y ≠ x ∧ y ≠ vF := by simpa [vF] using hy
  exact setRegFlag_reg_ne s b f hx hf

/-- A flag-writing operation leaves its result in `Vx`, unless that is `VF`, and its flag in `VF` in any case (D10). -/
theorem next_setRegFlag (x : Reg) (b : Byte) (f : Bool) :
    ∃ t, (.next (setRegFlag x b f s) : Result) = .next t ∧ (x ≠ 15 → t.reg x = b) ∧ t.reg 15 = flagByte f ∧
      OnlyRegs [x, 15] s t :=
  ⟨_, rfl, setRegFlag_reg_dest s b f, setRegFlag_vF s x b f, setRegFlag_onlyRegs s x b f⟩

/-- Settles O27: the flag is `carryOut` whatever `x` is (`next_setRegFlag`). -/
theorem addSetsCarry : Obligations.AddSetsCarry := by
  intro x y s
  obtain ⟨t, hexec, hdest, hflag, honly⟩ :=
    next_setRegFlag s x (s.reg x + s.reg y) (carryOut (s.reg x) (s.reg y))
  refine ⟨encodedAs_encode (.addReg x y), t, hexec, fun hx => ?_, fun hcarry => ?_, fun hfits => ?_, honly⟩
  · rw [hdest hx, BitVec.toNat_add]
  · rw [hflag, carryOut_of_gt hcarry]; rfl
  · rw [hflag, carryOut_of_le hfits]; rfl

/-- The subtraction `a - b` into `Vx`, with the three orders of `a` and `b`. -/
theorem next_difference (x : Reg) (eqFlag : Bool) (a b : Byte) :
    ∃ t, (.next (setRegFlag x (a - b) (notBorrow eqFlag a b) s) : Result) = .next t ∧
      (x ≠ 15 → (t.reg x).toNat = (a.toNat + 256 - b.toNat) % 256) ∧
      (b.toNat < a.toNat → t.reg 15 = 1) ∧ (a.toNat = b.toNat → (t.reg 15).toNat = eqFlag.toNat) ∧
      (a.toNat < b.toNat → t.reg 15 = 0) ∧ OnlyRegs [x, 15] s t := by
  obtain ⟨t, hexec, hdest, hflag, honly⟩ := next_setRegFlag s x (a - b) (notBorrow eqFlag a b)
  refine ⟨t, hexec, fun hx => ?_, fun hgt => ?_, fun heq => ?_, fun hlt => ?_, honly⟩
  · have hb := b.isLt
    rw [hdest hx, BitVec.toNat_sub]
    omega
  · rw [hflag, notBorrow_of_ne eqFlag hgt.ne', decide_eq_true hgt]; rfl
  · rw [hflag, BitVec.eq_of_toNat_eq heq, notBorrow_self, flagByte_toNat]
  · rw [hflag, notBorrow_of_ne eqFlag hlt.ne, decide_eq_false hlt.not_gt]; rfl

/-- Settles O28: SUBN is SUB with the operands exchanged and a parameter of its own. -/
theorem subtractionsSetNotBorrow : Obligations.SubtractionsSetNotBorrow := fun x y s =>
  ⟨next_difference s x s.cfg.subEqFlag (s.reg x) (s.reg y),
    next_difference s x s.cfg.subnEqFlag (s.reg y) (s.reg x)⟩

/-- Settles O29: result and flag are functions of `Vx` alone. -/
theorem shiftsIgnoreVy : Obligations.ShiftsIgnoreVy := by
  intro x y s
  obtain ⟨r, hexecR, hdestR, hflagR, honlyR⟩ := next_setRegFlag s x (s.reg x >>> 1) (shiftOutRight (s.reg x))
  obtain ⟨l, hexecL, hdestL, hflagL, honlyL⟩ := next_setRegFlag s x (s.reg x <<< 1) (shiftOutLeft (s.reg x))
  refine ⟨encodedAs_encode (.shr x y), encodedAs_encode (.shl x y),
    ⟨r, hexecR, fun hx => ?_, ?_, honlyR⟩, ⟨l, hexecL, fun hx => ?_, ?_, honlyL⟩⟩
  · rw [hdestR hx, BitVec.toNat_ushiftRight, Nat.shiftRight_eq_div_pow, pow_one]
  · rw [hflagR, flagByte_toNat, shiftOutRight_toNat]
  · rw [hdestL hx, BitVec.toNat_shiftLeft, Nat.shiftLeft_eq, pow_one]
  · rw [hflagL, flagByte_toNat, shiftOutLeft_toNat]

end Sys2Proof.Machine
end

section
/-! The index register and the memory instructions (R170 to R176): where `I` points, the run of bytes that each of
`Fx33`, `Fx55` and `Fx65` moves at it, and that nothing else changes. -/

namespace Sys2Proof.Machine

variable {s t : State}

/-! ### The index register -/

theorem onlyIndex_setIreg (a : Addr) (s : State) : OnlyIndex s { s with ireg := a } :=
  ⟨rfl, fun _ _ => rfl, fun _ => rfl⟩

/-- Settles O31: a 12-bit address keeps its value at 16 bits. -/
theorem loadIndex : Obligations.LoadIndex := fun nnn s =>
  have hvalue := zextAddr_toNat nnn
  ⟨encodedAs_encode (.ldI nnn), _, rfl, hvalue, hvalue.trans_le (Nat.le_of_lt_succ nnn.isLt), onlyIndex_setIreg _ s⟩

/-- Settles O32: the sum of R171 is the 16-bit sum. -/
theorem addToIndexWraps : Obligations.AddToIndexWraps := by
  intro x s
  refine ⟨encodedAs_encode (.addI x), _, rfl, ?_, onlyIndex_setIreg _ s⟩
  rw [BitVec.toNat_add, zextByte_toNat]

/-! ### Glyphs (R61, R172) -/

theorem fontFits_iff {c : Config} : c.fontFits = true ↔ c.fontBase.toNat + 80 ≤ 0x200 := decide_eq_true_iff

/-- The 16 glyphs lie in low memory, so the address of one does not wrap. -/
theorem glyphAddr_toNat {c : Config} (h : c.fontFits = true) (b : Byte) :
    (glyphAddr c b).toNat = c.fontBase.toNat + 5 * (b.toNat % 16) := by
  have hbase := fontFits_iff.mp h
  have hnibble : ((b.extractLsb' 0 4).setWidth 16).toNat = b.toNat % 16 := by
    rw [BitVec.toNat_setWidth_of_le (by decide), BitVec.extractLsb'_toNat, Nat.shiftRight_zero]
  have hfive : (5 : Addr).toNat = 5 := rfl
  rw [glyphAddr, BitVec.toNat_add, BitVec.toNat_mul, hnibble, hfive]
  omega

/-- Glyph `d` is the five bytes of the font from `5 * d` up, which reset puts at `FONT_BASE + 5 * d`. -/
theorem resetWith_glyph {c : Config} (h : c.fontFits = true) (b : Byte) (k : Nat) (hk : k < 5) :
    (State.resetWith c).byteAt ((glyphAddr c b).toNat + k) = c.fontData[5 * (b.toNat % 16) + k] := by
  rw [glyphAddr_toNat h, resetWith_byteAt, Nat.add_assoc]
  exact resetByte_font (by omega)

/-- Settles O33: `I` gets the address of the glyph, which is `glyphAddr_toNat`; what reset holds there is
`resetWith_glyph`. -/
theorem fontAddressPointsAtGlyph : Obligations.FontAddressPointsAtGlyph := fun x s hfont =>
  ⟨_, rfl, glyphAddr_toNat hfont (s.reg x), onlyIndex_setIreg _ s, resetWith_glyph hfont (s.reg x)⟩

/-! ### Instructions that store a run of bytes -/

theorem OnlyStores.ireg {a : Addr} {n : Nat} (h : OnlyStores a n s t) : t.ireg = s.ireg := by rw [h.1]

/-- What an instruction that stores `bs` at `a` leaves, when it completes. -/
theorem orMemoryFault_storeBytes_next {bs : List Byte} {a : Addr} (hne : bs ≠ [])
    (h : orMemoryFault (storeBytes bs a s) = .next t) :
    Fits a bs.length ∧ OnlyStores a bs.length s t ∧
      (MemoryOk s → ∀ (k : Nat) (hk : k < bs.length), t.byteAt (a.toNat + k) = bs[k]) := by
  obtain ⟨hfit, hmem, hout, hbytes⟩ := storeBytes_ok (orMemoryFault_next h)
  have hfit := hfit.resolve_left hne
  exact ⟨hfit, onlyStores_of_keeps_outside hfit hmem hout, hbytes⟩

/-- The digits of R173 are decimal digits of the byte. -/
theorem bcdDigits_spec (b : Byte) : ∃ hundreds tens ones : Byte, bcdDigits b = [hundreds, tens, ones] ∧
    b.toNat = 100 * hundreds.toNat + 10 * tens.toNat + ones.toNat ∧ tens.toNat ≤ 9 ∧ ones.toNat ≤ 9 := by
  have hb := b.isLt
  refine ⟨_, _, _, rfl, ?_⟩
  simp only [BitVec.toNat_ofNat]
  omega

/-- Settles O34: the bytes stored are the digits of `bcdDigits_spec`; three of them fit or the access faults. -/
theorem bcdStoresThreeDigits : Obligations.BcdStoresThreeDigits := by
  intro x s hs
  refine ⟨fun hfit => ?_, fun hout => exec_faults (i := .ldB x) (not_or.mpr ⟨three_ne_zero, hout⟩)⟩
  obtain ⟨t, hexec⟩ := exec_completes (i := .ldB x) (s := s) (.inr hfit)
  have hstore : orMemoryFault (storeBytes (bcdDigits (s.reg x)) s.ireg s) = .next t := hexec
  obtain ⟨hundreds, tens, ones, hdigits, hvalue, htens, hones⟩ := bcdDigits_spec (s.reg x)
  rw [hdigits] at hstore
  obtain ⟨-, honly, hbytes⟩ := orMemoryFault_storeBytes_next (List.cons_ne_nil _ _) hstore
  obtain rfl : t.byteAt s.ireg.toNat = hundreds := hbytes hs 0 (Nat.le_add_left 1 2)
  obtain rfl : t.byteAt (s.ireg.toNat + 1) = tens := hbytes hs 1 (Nat.le_add_left 2 1)
  obtain rfl : t.byteAt (s.ireg.toNat + 2) = ones := hbytes hs 2 (Nat.le_add_left 3 0)
  exact ⟨t, hexec, hvalue, htens, hones, honly⟩

/-! ### `Fx55` and `Fx65` -/

theorem firstRegs_getElem {n : Nat} {y : Reg} (s : State) (h : y.toNat < (s.firstRegs n).length) :
    (s.firstRegs n)[y.toNat] = s.reg y := by
  simp [State.firstRegs, State.reg]

/-- What `Fx55` leaves when it completes. -/
theorem exec_storeRegs_next {x : Reg} (h : exec (.storeRegs x) s = .next t) :
    Fits s.ireg (x.toNat + 1) ∧ OnlyStores s.ireg (x.toNat + 1) s t ∧
      (MemoryOk s → ∀ y : Reg, y.toNat ≤ x.toNat → t.byteAt (s.ireg.toNat + y.toNat) = s.reg y) := by
  have hlen : (s.firstRegs (regCount x)).length = x.toNat + 1 := firstRegs_regCount_length s x
  have hne : s.firstRegs (regCount x) ≠ [] := List.ne_nil_of_length_eq_add_one hlen
  obtain ⟨hfit, honly, hbytes⟩ := orMemoryFault_storeBytes_next hne h
  rw [hlen] at hfit honly
  refine ⟨hfit, honly, fun hs y hy => ?_⟩
  rw [hbytes hs y.toNat (by omega), firstRegs_getElem]

/-- Settles O35: `exec_storeRegs_next` where the run fits, a fault where it does not; `I` is no byte of memory. -/
theorem storeRegistersStoresPrefix : Obligations.StoreRegistersStoresPrefix := by
  intro x s hs
  refine ⟨fun hfit => ?_, fun hout => exec_faults (i := .storeRegs x) (not_or.mpr ⟨Nat.succ_ne_zero _, hout⟩)⟩
  obtain ⟨t, hexec⟩ := exec_completes (i := .storeRegs x) (s := s) (.inr hfit)
  obtain ⟨-, honly, hbytes⟩ := exec_storeRegs_next hexec
  exact ⟨t, hexec, hbytes hs, honly.ireg, honly⟩

/-- What `Fx65` loads where its run of bytes fits. -/
theorem exec_loadRegs_fits {x : Reg} (h : Fits s.ireg (x.toNat + 1)) :
    ∃ t, exec (.loadRegs x) s = .next t ∧
      ∀ y : Reg, y.toNat ≤ x.toNat → t.reg y = s.byteAt (s.ireg.toNat + y.toNat) := by
  have hload : loadBytes s (regCount x) s.ireg = .ok _ := loadBytes_fits (.inr h)
  refine ⟨_, by rw [exec, execLoadRegs, hload], fun y hy => ?_⟩
  have hx := x.isLt
  rw [setRegsFrom_reg _ _ _ _ (by simp [regCount]; omega), dif_pos (by simp [regCount]; omega)]
  simp

/-- Settles O36: the frame and the registers above `Vx` are those of every `Fx65` that completes. -/
theorem loadRegistersLoadsPrefix : Obligations.LoadRegistersLoadsPrefix := by
  intro x s
  refine ⟨fun hfit => ?_, fun hout => exec_faults (i := .loadRegs x) (not_or.mpr ⟨Nat.succ_ne_zero _, hout⟩)⟩
  obtain ⟨t, hexec, hloaded⟩ := exec_loadRegs_fits hfit
  have hframe : t = { s with v := t.v } := exec_eq_frameOf hexec
  exact ⟨t, hexec, hloaded, fun y hy => exec_reg_of_not_writesReg hexec hy.not_ge, hframe,
    fun a => by rw [hframe]; rfl⟩

/-- Settles O37: `Fx55` leaves `I`, so `Fx65` reads the bytes that it stored, whatever the registers hold by then. -/
theorem storeThenLoadRestoresRegisters : Obligations.StoreThenLoadRestoresRegisters := by
  intro x s t v hs hstore
  obtain ⟨hfit, honly, hbytes⟩ := exec_storeRegs_next hstore
  have hindex : t.ireg = s.ireg := honly.ireg
  have hfit' : Fits { t with v := v }.ireg (x.toNat + 1) := hindex ▸ hfit
  obtain ⟨u, hload, hloaded⟩ := exec_loadRegs_fits hfit'
  refine ⟨u, hload, fun y hy => ?_⟩
  calc u.reg y = t.byteAt (t.ireg.toNat + y.toNat) := hloaded y hy
    _ = s.reg y := by rw [hindex, hbytes hs y hy]

end Sys2Proof.Machine
end

section
/-! The display (R190 to R196): the blit mask pixel by pixel, and a drawn sprite as one mask for each row of the
display, XORed in; a row collides where it shares a lit pixel with its mask. -/

namespace Sys2Proof.Machine

variable {s t : State} {x y : Reg} {n : Imm4}

/-- Settles O38: clearing writes the display alone. -/
theorem clearBlanksDisplay : Obligations.ClearBlanksDisplay := ⟨encodedAs_encode .cls, fun _ =>
  ⟨_, rfl, fun r => Vector.getElem_replicate r.isLt, rfl, fun _ _ => rfl, fun _ => rfl⟩⟩

/-! ### One row -/

/-- A byte has no bit above bit 7, so nothing has to be cut off on the left of column `x`. -/
theorem spritePixel_eq (x : Nat) (b : Byte) (c : Nat) :
    spritePixel x b c = (decide (c ≤ x + 7) && b.getLsbD (x + 7 - c)) := by
  rw [spritePixel]
  by_cases hleft : x ≤ c
  · simp [hleft]
  · rw [BitVec.getLsbD_of_ge b _ (by omega), Bool.and_false, Bool.and_false]

/-- A byte widened to a row has the bits of the byte. -/
theorem setWidth_row_getLsbD (b : Byte) (i : Nat) : (b.setWidth 64).getLsbD i = b.getLsbD i := by
  rw [BitVec.getLsbD_setWidth]
  by_cases hlow : i < 64
  · rw [decide_eq_true hlow, Bool.true_and]
  · rw [BitVec.getLsbD_of_ge b i (by omega), Bool.and_false]

/-- Up to column 56 the byte is shifted left, which brings zeros in on its right; past it the byte is shifted right and
its low bits are lost (R191). -/
theorem blitMask_getLsbD {x c : Nat} (b : Byte) (hx : x ≤ 63) (hc : c ≤ 63) :
    (blitMask x b).getLsbD (63 - c) = spritePixel x b c := by
  have hcol : 63 - c < 64 := by omega
  rw [spritePixel_eq, blitMask]
  split
  case isTrue hwhole =>
    rw [BitVec.getLsbD_shiftLeft, setWidth_row_getLsbD]
    by_cases hright : c ≤ x + 7
    · have hbit : 63 - c - (56 - x) = x + 7 - c := by omega
      have hin : ¬ 63 - c < 56 - x := by omega
      simp [hcol, hright, hbit, hin]
    · have hout : 63 - c < 56 - x := by omega
      simp [hright, hout]
  case isFalse hcut =>
    have hbit : x - 56 + (63 - c) = x + 7 - c := by omega
    have hright : c ≤ x + 7 := by omega
    rw [BitVec.getLsbD_ushiftRight, setWidth_row_getLsbD, hbit, decide_eq_true hright, Bool.true_and]

/-- Settles O39, which is `blitMask_getLsbD`. -/
theorem blitMaskPlacesSpriteByte : Obligations.BlitMaskPlacesSpriteByte := fun _ _ b hx hc => blitMask_getLsbD b hx hc

/-- A row is determined by its columns. -/
theorem rowWord_ext {w m : RowWord} (h : ∀ c, c ≤ 63 → w.getLsbD (63 - c) = m.getLsbD (63 - c)) : w = m := by
  refine BitVec.eq_of_getLsbD_eq fun i hi => ?_
  have hcol := h (63 - i) (Nat.sub_le 63 i)
  rwa [Nat.sub_sub_self (Nat.le_of_lt_succ hi)] at hcol

/-- A row shares a lit pixel with a mask iff XOR with the mask clears a lit pixel (R192). -/
theorem and_ne_zero_iff_xor_clears {w m : RowWord} :
    w &&& m ≠ 0 ↔ ∃ c, c ≤ 63 ∧ w.getLsbD (63 - c) = true ∧ (w ^^^ m).getLsbD (63 - c) = false := by
  have hbit (c : Nat) : (w &&& m).getLsbD (63 - c) = true ↔
      w.getLsbD (63 - c) = true ∧ (w ^^^ m).getLsbD (63 - c) = false := by
    rw [BitVec.getLsbD_and, BitVec.getLsbD_xor]
    cases w.getLsbD (63 - c) <;> simp
  simp only [← hbit]
  constructor
  · intro hne
    by_contra hnone
    have hdark (c : Nat) (hc : c ≤ 63) : (w &&& m).getLsbD (63 - c) = false :=
      Bool.eq_false_iff.mpr fun hlit => hnone ⟨c, hc, hlit⟩
    exact hne (rowWord_ext fun c hc => (hdark c hc).trans BitVec.getLsbD_zero.symm)
  · rintro ⟨c, -, hlit⟩ hzero
    rw [hzero] at hlit
    exact Bool.false_ne_true (BitVec.getLsbD_zero.symm.trans hlit)

theorem blit_eq (x : Nat) (y : Fin 32) (b : Byte) (d : Vector RowWord 32) :
    blit x y b d = (d.set y (d[y] ^^^ blitMask x b), (d[y] &&& blitMask x b) != 0) := dif_pos y.isLt

/-- Settles O40: the collision test of the blit is that of `and_ne_zero_iff_xor_clears`. -/
theorem blitXorsRowAndReportsCollision : Obligations.BlitXorsRowAndReportsCollision := by
  intro x y b d _
  rw [blit_eq]
  have hrow : (d.set y (d[y] ^^^ blitMask x b))[y] = d[y] ^^^ blitMask x b := Vector.getElem_set_self y.isLt
  refine ⟨hrow, fun r hr => Vector.getElem_set_ne y.isLt r.isLt (Fin.val_ne_of_ne hr.symm), ?_⟩
  simp only [pixelLit, hrow, bne_iff_ne]
  exact and_ne_zero_iff_xor_clears

/-! ### A drawn sprite (R195) -/

/-- What a draw XORs into row `r`: the mask of the sprite byte drawn there, or nothing. -/
def drawMask (x y : Reg) (n : Imm4) (s : State) (r : Fin 32) : RowWord :=
  let y0 := drawRow (s.reg y)
  if y0 ≤ r.val ∧ r.val < y0 + rowsDrawn n y0 then
    blitMask (drawColumn (s.reg x)) (s.byteAt (s.ireg.toNat + (r.val - y0)))
  else 0

/-- A draw whose masks are `m` meets a lit pixel of the display `d`. -/
def Collides (d : Vector RowWord 32) (m : Fin 32 → RowWord) : Prop := ∃ r : Fin 32, d[r] &&& m r ≠ 0

theorem not_collides_blank (m : Fin 32 → RowWord) : ¬ Collides (Vector.replicate 32 0) m := by
  rintro ⟨r, hr⟩
  rw [Fin.getElem_fin, Vector.getElem_replicate] at hr
  exact hr BitVec.zero_and

/-- On a display drawn on a blank one, the same masks collide if they lit anything. -/
theorem collides_of_xor_blank {d : Vector RowWord 32} {m : Fin 32 → RowWord}
    (hrows : ∀ r : Fin 32, d[r] = (Vector.replicate 32 0)[r] ^^^ m r) (hlit : d ≠ Vector.replicate 32 0) :
    Collides d m := by
  by_contra hnone
  refine hlit (Vector.ext fun i hi => ?_)
  have hrow : d[i] = m ⟨i, hi⟩ := by simpa using hrows ⟨i, hi⟩
  have hdark : d[i] &&& m ⟨i, hi⟩ = 0 := by_contra fun hne => hnone ⟨⟨i, hi⟩, hne⟩
  rw [← hrow, BitVec.and_self] at hdark
  rw [hdark, Vector.getElem_replicate]

theorem pixelLit_xor {d e : Vector RowWord 32} {m : RowWord} {r : Fin 32} (h : e[r] = d[r] ^^^ m) (c : Nat) :
    pixelLit e c r = (pixelLit d c r ^^ m.getLsbD (63 - c)) := by
  rw [pixelLit, h, BitVec.getLsbD_xor]; rfl

/-- A draw collides iff it clears a lit pixel. -/
theorem collides_iff_clears {d e : Vector RowWord 32} {m : Fin 32 → RowWord} (h : ∀ r : Fin 32, e[r] = d[r] ^^^ m r) :
    Collides d m ↔ ∃ (c : Nat) (r : Fin 32), c ≤ 63 ∧ pixelLit d c r = true ∧ pixelLit e c r = false := by
  simp only [Collides, and_ne_zero_iff_xor_clears, pixelLit, h]
  exact exists_comm

/-- The bytes of the rows that `Dxyn` draws. -/
def drawBytes (y : Reg) (n : Imm4) (s : State) : List Byte :=
  (List.range (rowsDrawn n (drawRow (s.reg y)))).map fun k => s.byteAt (s.ireg.toNat + k)

theorem drawBytes_length (y : Reg) (n : Imm4) (s : State) :
    (drawBytes y n s).length = rowsDrawn n (drawRow (s.reg y)) := by simp [drawBytes]

theorem drawBytes_getElem {k : Nat} (h : k < (drawBytes y n s).length) :
    (drawBytes y n s)[k] = s.byteAt (s.ireg.toNat + k) := by simp [drawBytes]

/-- No row is drawn below the display (R196 c). -/
theorem drawBytes_fit (y : Reg) (n : Imm4) (s : State) : drawRow (s.reg y) + (drawBytes y n s).length ≤ 32 := by
  rw [drawBytes_length, rowsDrawn, drawRow_eq]
  omega

/-- The blits of the bytes of a draw XOR its masks into the display. -/
theorem blitRows_drawBytes_row (x y : Reg) (n : Imm4) (s : State) (r : Fin 32) :
    (blitRows (drawColumn (s.reg x)) (drawRow (s.reg y)) (drawBytes y n s) s.disp).1[r] =
      s.disp[r] ^^^ drawMask x y n s r := by
  rw [blitRows_row (drawBytes_fit y n s)]
  simp only [drawMask, drawBytes_length, drawBytes_getElem]
  split
  · rfl
  · exact BitVec.xor_zero.symm

theorem blitRows_drawBytes_collision (x y : Reg) (n : Imm4) (s : State) :
    (blitRows (drawColumn (s.reg x)) (drawRow (s.reg y)) (drawBytes y n s) s.disp).2 = true ↔
      Collides s.disp (drawMask x y n s) := by
  rw [blitRows_collision (drawBytes_fit y n s)]
  simp only [Collides, drawMask, drawBytes_length, drawBytes_getElem]
  refine exists_congr fun r => ?_
  split
  case isTrue hdrawn => exact exists_prop_of_true hdrawn
  case isFalse hout => simp [hout]

/-- What `Dxyn` leaves when it completes. -/
theorem exec_drw_next (h : exec (.drw x y n) s = .next t) : t = drawSprite x y (drawBytes y n s) s := by
  rw [exec, execDrw] at h
  split at h
  case h_1 bytes hload =>
    obtain ⟨-, rfl⟩ := loadBytes_ok hload
    cases h; rfl
  case h_2 => cases h

theorem exec_drw_row (h : exec (.drw x y n) s = .next t) (r : Fin 32) :
    t.disp[r] = s.disp[r] ^^^ drawMask x y n s r := by
  rw [exec_drw_next h]
  exact blitRows_drawBytes_row x y n s r

theorem exec_drw_flag (h : exec (.drw x y n) s = .next t) :
    (Collides s.disp (drawMask x y n s) → t.reg 15 = 1) ∧ (¬ Collides s.disp (drawMask x y n s) → t.reg 15 = 0) := by
  rw [exec_drw_next h, ← blitRows_drawBytes_collision, drawSprite]
  refine ⟨fun hhit => ?_, fun hmiss => ?_⟩
  · rw [hhit]; exact setReg_reg_same _ _ _
  · rw [Bool.eq_false_iff.mpr hmiss]; exact setReg_reg_same _ _ _

/-- A mask of a draw, pixel by pixel, with the coordinates as remainders (R195). -/
theorem drawMask_getLsbD {c : Nat} (r : Fin 32) (hc : c ≤ 63) :
    (drawMask x y n s r).getLsbD (63 - c) =
      (decide ((s.reg y).toNat % 32 ≤ r.val ∧
          r.val < (s.reg y).toNat % 32 + min n.toNat (32 - (s.reg y).toNat % 32)) &&
        spritePixel ((s.reg x).toNat % 64) (s.byteAt (s.ireg.toNat + (r.val - (s.reg y).toNat % 32))) c) := by
  simp only [drawMask, rowsDrawn, drawRow_eq, drawColumn_eq]
  split
  case isTrue hdrawn => rw [blitMask_getLsbD _ (by omega) hc, decide_eq_true hdrawn, Bool.true_and]
  case isFalse hout => rw [decide_eq_false hout, Bool.false_and]; exact BitVec.getLsbD_zero

theorem accessFits_drw : AccessFits (.drw x y n) s ↔
    min n.toNat (32 - (s.reg y).toNat % 32) = 0 ∨ Fits s.ireg (min n.toNat (32 - (s.reg y).toNat % 32)) := by
  rw [← drawRow_eq]; rfl

/-- Settles O41: each row is XORed with its mask (`exec_drw_row`), which `drawMask_getLsbD` reads pixel by pixel; the
flag says that a mask met a lit pixel, which XOR clears. -/
theorem drawXorsSprite : Obligations.DrawXorsSprite := by
  intro x y n s
  refine ⟨encodedAs_encode (.drw x y n), fun hfits => ?_, fun hrows hout => ?_⟩
  · obtain ⟨t, hexec⟩ := exec_completes (accessFits_drw.mpr hfits)
    obtain ⟨hhit, hmiss⟩ := exec_drw_flag hexec
    rw [collides_iff_clears (exec_drw_row hexec)] at hhit hmiss
    have hframe : t = { s with disp := t.disp, v := t.v } := exec_eq_frameOf hexec
    refine ⟨t, hexec, fun c r hc => ?_, hhit, hmiss, hframe, fun r hr => ?_, fun a => by rw [hframe]; rfl⟩
    · rw [pixelLit_xor (exec_drw_row hexec r), drawMask_getLsbD r hc]
    · exact exec_reg_of_not_writesReg hexec (List.ne_of_not_mem_cons hr)
  · exact exec_faults (mt accessFits_drw.mp (not_or.mpr ⟨hrows, hout⟩))

/-! ### Drawing twice -/

/-- `Dxyn` writes `VF` and the display only, so with its coordinates in other registers it draws at the same place
again, from the same bytes. -/
theorem exec_drw_keeps_masks_and_access (hx : x ≠ 15) (hy : y ≠ 15) (h : exec (.drw x y n) s = .next t) :
    drawMask x y n t = drawMask x y n s ∧ (AccessFits (.drw x y n) t ↔ AccessFits (.drw x y n) s) := by
  have hregX : t.reg x = s.reg x := exec_reg_of_not_writesReg h hx
  have hregY : t.reg y = s.reg y := exec_reg_of_not_writesReg h hy
  have hframe : t = { s with disp := t.disp, v := t.v } := exec_eq_frameOf h
  have hindex : t.ireg = s.ireg := by rw [hframe]
  have hbyte (a : Nat) : t.byteAt a = s.byteAt a := by rw [hframe]; rfl
  refine ⟨funext fun r => ?_, ?_⟩
  · simp only [drawMask, hregX, hregY, hindex, hbyte]
  · rw [accessFits_drw, accessFits_drw, hregY, hindex]

/-- Settles O42: the second draw has the masks of the first, and XOR with the same mask twice is nothing. -/
theorem drawingTwiceErases : Obligations.DrawingTwiceErases := by
  intro x y n s t hx hy hfirst
  obtain ⟨hmask, haccess⟩ := exec_drw_keeps_masks_and_access hx hy hfirst
  have hfits : AccessFits (.drw x y n) s := by
    by_contra hout
    rw [exec_faults hout] at hfirst
    cases hfirst
  obtain ⟨u, hsecond⟩ := exec_completes (haccess.mpr hfits)
  refine ⟨u, hsecond, Vector.ext fun i hi => ?_, fun hblank => ⟨?_, fun hlit => ?_⟩⟩
  · have hrow1 := exec_drw_row hfirst ⟨i, hi⟩
    have hrow2 := exec_drw_row hsecond ⟨i, hi⟩
    rw [hmask, hrow1, BitVec.xor_assoc, BitVec.xor_self, BitVec.xor_zero] at hrow2
    exact hrow2
  · obtain ⟨-, hmiss⟩ := exec_drw_flag hfirst
    exact hmiss (hblank ▸ not_collides_blank _)
  · obtain ⟨hhit, -⟩ := exec_drw_flag hsecond
    have hrows := exec_drw_row hfirst
    rw [hblank] at hrows hlit
    exact hhit (hmask ▸ collides_of_xor_blank hrows hlit)

end Sys2Proof.Machine
end

section
/-! The keypad and timer instructions (R210 to R216): each is one sync and one other call, and changes nothing else; an
`Fx0A` without an answer waits. -/

namespace Sys2Proof.Machine

variable {s t : State} {x : Reg} {k : Byte} {ks : List Byte}

/-! ### What a sync, and a register write after it, leave -/

/-- A counter of the timer unit after the sync of its state's own time (R244, D12). -/
theorem countDown_ticksSince_toNat {c : Config} {t0 t1 : Time} (b : Byte) (h : t0 ≤ t1) :
    (countDown b (ticksSince c t0 t1)).toNat = b.toNat - ticksBetween c t0 t1 := by
  rw [countDown_toNat, ticksSince, if_pos h, ticksBetween]

/-- The timers that a sync at the state's own time leaves are the synced ones, whatever else changes after it. -/
theorem timersSynced_of_ioSync (hdt : t.dt = (ioSync s.time s).dt) (hst : t.st = (ioSync s.time s).st)
    (htime : t.timerTime = s.time) : TimersSynced s t :=
  ⟨htime, fun hle => ⟨by rw [hdt]; exact countDown_ticksSince_toNat s.dt hle,
    by rw [hst]; exact countDown_ticksSince_toNat s.st hle⟩⟩

/-- A register write after operations that keep the register file changes that register only. -/
theorem keepsRegsBut_setReg (x : Reg) (b : Byte) (hv : t.v = s.v) : KeepsRegsBut [x] s (t.setReg x b) := fun y hy => by
  rw [setReg_reg_ne t b (List.ne_of_not_mem_cons hy), State.reg, State.reg, hv]

/-! ### The key skips -/

/-- `Ex9E` asks about the full `Vx` and skips if the answer is down (R211). -/
theorem exec_skp (x : Reg) (s : State) :
    exec (.skp x) s = .next { ioIsKeyDown (s.reg x) (ioSync s.time s) with
      pc := if s.keyDownDraw (s.reg x) then s.pc + 2 else s.pc } :=
  congrArg Host.Outcome.next (skipIf_eq _ _)

/-- `ExA1` asks the same and skips if the answer is up (R212). -/
theorem exec_sknp (x : Reg) (s : State) :
    exec (.sknp x) s = .next { ioIsKeyDown (s.reg x) (ioSync s.time s) with
      pc := if s.keyDownDraw (s.reg x) then s.pc else s.pc + 2 } := by
  have hskip : exec (.sknp x) s = .next { ioIsKeyDown (s.reg x) (ioSync s.time s) with
      pc := if !s.keyDownDraw (s.reg x) then s.pc + 2 else s.pc } :=
    congrArg Host.Outcome.next (skipIf_eq _ _)
  rw [hskip]
  cases s.keyDownDraw (s.reg x) <;> rfl

/-- Settles O44: both ask the same question, about the register the sync leaves as it was, and differ in `pc` only. -/
theorem keySkipsFollowTheAnswer : Obligations.KeySkipsFollowTheAnswer := fun x s =>
  ⟨s.keyDownDraw (s.reg x), _, _, exec_skp x s, exec_sknp x s, rfl, rfl, List.append_assoc _ _ _, rfl,
    timersSynced_of_ioSync rfl rfl rfl, rfl, rfl, rfl, fun _ _ => rfl, fun _ _ => rfl, fun _ => rfl, fun _ => rfl⟩

/-! ### The timer instructions -/

/-- Settles O45: the register is written with the delay timer that the sync left. -/
theorem readDelayTimerAfterSync : Obligations.ReadDelayTimerAfterSync := fun x _ =>
  ⟨encodedAs_encode (.ldVxDt x), _, rfl, setReg_reg_same _ x _, timersSynced_of_ioSync rfl rfl rfl, rfl,
    keepsRegsBut_setReg x _ rfl, fun _ => rfl⟩

/-- Settles O46: one timer is overwritten after the sync; `TimersSynced` is about the delay timer of the one state and
the sound timer of the other. -/
theorem setTimersAfterSync : Obligations.SetTimersAfterSync := fun x _ =>
  ⟨encodedAs_encode (.ldDtVx x), encodedAs_encode (.ldStVx x), _, _, rfl, rfl, rfl, rfl, bne_iff_ne,
    timersSynced_of_ioSync rfl rfl rfl, rfl, rfl, rfl, fun _ _ => rfl, fun _ _ => rfl, fun _ => rfl, fun _ => rfl⟩

/-! ### The key wait -/

/-- `Fx0A` with an answer of the environment: the sync, then the key in the register (R214). -/
theorem exec_ldVxK_of_answer (x : Reg) (h : s.keys = k :: ks) :
    exec (.ldVxK x) s = .next (({ ioSync s.time s with
      keys := ks, keyWait := none, trace := (ioSync s.time s).trace ++ [.nextKey k] } : State).setReg x k) :=
  congrArg Host.Outcome.next (awaitKey_cons (s := ioSync s.time s) h)

/-- `Fx0A` without an answer: the sync, then the wait (R39, R214). -/
theorem exec_ldVxK_of_no_answer (x : Reg) (h : s.keys = []) :
    exec (.ldVxK x) s = .next { ioSync s.time s with keyWait := some x } :=
  congrArg Host.Outcome.next (awaitKey_nil (s := ioSync s.time s) h)

/-- Settles O47: the key is written unmasked (D14), and the sync before it is the only other change. -/
theorem keyWaitTakesTheKey : Obligations.KeyWaitTakesTheKey := by
  intro x s k ks hkeys hnowait
  refine ⟨_, exec_ldVxK_of_answer x hkeys, setReg_reg_same _ x k, rfl, rfl, timersSynced_of_ioSync rfl rfl rfl, ?_,
    keepsRegsBut_setReg x _ rfl, fun _ => rfl⟩
  rw [← hnowait]
  rfl

/-- The first step of an `Fx0A` without an answer makes the advance and the sync, adds no cost, and waits (D24). -/
theorem step_ldVxK_of_no_answer (hready : Ready s) (hfetch : fetch s = .ok (formatI 0xF x 0x0A)) (hkeys : s.keys = []) :
    step s = .next { ioSync s.time s.advancePc with keyWait := some x } := by
  rw [step_instr hready hfetch (decodeWord_encode (.ldVxK x)), exec_ldVxK_of_no_answer (s := s.advancePc) x hkeys]
  exact accrueOutcome_waiting (Option.some_ne_none x)

/-- A step in the wait changes nothing as long as there is no answer (R256). -/
theorem step_waiting_of_no_answer (hf : s.faulted = false) (hwait : s.keyWait = some x) (hkeys : s.keys = []) :
    step s = .next s := by
  have hsame : awaitKey x s = s := by rw [awaitKey_nil hkeys, ← hwait]
  rw [step_waiting hf hwait, resumeKeyWait, hsame, accrue_some hwait]

/-- A step in the wait takes the answer and adds the cost, once (R214, D24). -/
theorem step_waiting_of_answer (hf : s.faulted = false) (hwait : s.keyWait = some x) (hkeys : s.keys = k :: ks) :
    step s = .next (({ s with
      keys := ks, keyWait := none, trace := s.trace ++ [.nextKey k],
      time := s.time + costOf s.cfg (.ldVxK x) } : State).setReg x k) := by
  rw [step_waiting hf hwait, resumeKeyWait, awaitKey_cons hkeys, accrue_none rfl]
  rfl

/-- Settles O48: the first step waits, a step in the wait is the identity while the queue is empty, and the step after a
supplied key finds exactly that key there. -/
theorem keyWaitBlocksUntilAnswered : Obligations.KeyWaitBlocksUntilAnswered := by
  intro x s hready hfetch hkeys
  have hf : s.faulted = false := hready.1
  refine ⟨_, step_ldVxK_of_no_answer hready hfetch hkeys, rfl, rfl, rfl, timersSynced_of_ioSync rfl rfl rfl, rfl, rfl,
    step_waiting_of_no_answer hf rfl hkeys, fun k => ?_⟩
  have hqueue : s.keys ++ [k] = [k] := by rw [hkeys]; rfl
  refine ⟨_, step_waiting_of_answer (s := supplyKey k _) hf rfl hqueue, setReg_reg_same _ x k, rfl, rfl, rfl, rfl, ?_,
    keepsRegsBut_setReg x _ rfl⟩
  rw [← hkeys]
  rfl

/-! ### Sync first -/

theorem exec_trace_of_not_usesIo {i : Instr} (hio : usesIo i = false) (h : exec i s = .next t) : t.trace = s.trace := by
  rw [exec_eq_frameOf h]
  obtain ⟨-, -, -, htrace⟩ := (frameOf_timers i s t).resolve_right (by simp [hio])
  exact htrace

theorem unrecognisedWord_trace (s : State) : (unrecognisedWord s).trace = s.trace := by
  rw [unrecognisedWord, accrue_eq]
  rfl

/-- Settles O43: an instruction without Io has no trace in its frame; each of the six appends its own two events, the
second one of `Fx0A` when its key is there (`step_waiting_of_answer`). -/
theorem ioInstructionsSyncFirst : Obligations.IoInstructionsSyncFirst := by
  refine ⟨fun _ _ _ => exec_trace_of_not_usesIo, unrecognisedWord_trace, fun x s => ?_, fun s hf => ?_⟩
  · obtain ⟨down, t, u, hskp, hsknp, -, -, htrace, hsame, -⟩ := keySkipsFollowTheAnswer x s
    refine ⟨⟨t, down, hskp, htrace⟩, ⟨u, down, hsknp, hsame.trans htrace⟩, ⟨_, rfl, ?_⟩,
      ⟨_, rfl, List.append_assoc _ _ _⟩, ⟨_, rfl, List.append_assoc _ _ _⟩,
      fun k ks hkeys => ⟨_, exec_ldVxK_of_answer x hkeys, List.append_assoc _ _ _⟩,
      fun hkeys => ⟨_, exec_ldVxK_of_no_answer x hkeys, rfl, fun k ks => ⟨_, step_waiting_of_answer rfl rfl rfl, rfl⟩⟩⟩
    rw [setReg_reg_same]
    exact List.append_assoc _ _ _
  · rw [finishRun_of_not_faulted hf]
    rfl

end Sys2Proof.Machine
end

section
/-! The two exceptions (R232, R233): the `EmulationFault` is counted and goes on, and a `MemoryFault` of an instruction
comes from its memory accesses alone. -/

namespace Sys2Proof.Machine

variable {s : State} {i : Instr}

/-- The step at an unrecognised word, field by field (R232). -/
theorem step_not_wordRecognised {w : Word} (hready : Ready s) (hfetch : fetch s = .ok w)
    (hw : wordRecognised w = false) :
    step s = .next { s with pc := s.pc + 2, errors := s.errors + 1, time := s.time + s.cfg.costFault } := by
  obtain ⟨e, hdec⟩ := decodeWord_error_iff_not_wordRecognised.mpr hw
  rw [step_unrecognised hready hfetch hdec]
  exact congrArg Host.Outcome.next (unrecognisedWord_eq hready.2)

/-- Settles O11: the next state differs in three fields, whose sums are those of their bit vectors. -/
theorem emulationFaultIsCountedAndNotFatal : Obligations.EmulationFaultIsCountedAndNotFatal :=
  fun s _ hready hfetch hw => ⟨_, step_not_wordRecognised hready hfetch hw, rfl, BitVec.toNat_add s.errors 1,
    BitVec.toNat_add s.time s.cfg.costFault, rfl, hready, rfl, fun _ _ => rfl, fun _ => rfl⟩

/-- An instruction that R233 does not list accesses no byte beyond its fetch. -/
theorem accessFits_of_not_accessesMemory (h : accessesMemory i = false) : AccessFits i s := by
  cases i
  case ret | call | drw | ldB | storeRegs | loadRegs => cases h
  all_goals exact .inl rfl

/-- Settles O13: an instruction completes when its accesses fit, which they do where there are none, and takes the
fault otherwise. -/
theorem onlyMemoryAccessesFault : Obligations.OnlyMemoryAccessesFault := fun _ _ =>
  ⟨fun hnone => exec_completes (accessFits_of_not_accessesMemory hnone), fun _ hfits => exec_completes hfits,
    fun _ hsome hout => exec_faults (not_or.mpr ⟨hsome, hout⟩)⟩

end Sys2Proof.Machine
end

section
/-! The laws of the two timers (R249, D12): between two sets a timer counts down the tick boundaries, however many syncs
there are, and so it grows only by a set. -/

namespace Sys2Proof.Machine

variable {s t : State} {i : Instr}

/-! ### A run of syncs -/

/-- The ticks of a stretch of time are those of its two parts. -/
theorem ticksBetween_add (c : Config) {t0 t1 t2 : Time} (h01 : t0.toNat ≤ t1.toNat) (h12 : t1.toNat ≤ t2.toNat) :
    ticksBetween c t0 t1 + ticksBetween c t1 t2 = ticksBetween c t0 t2 := by
  have hdiv01 := Nat.div_le_div_right (c := c.tickPeriod.toNat) h01
  have hdiv12 := Nat.div_le_div_right (c := c.tickPeriod.toNat) h12
  unfold ticksBetween
  omega

/-- The syncs at the times given, in their order. -/
def syncAll (times : List Time) (s : State) : State := times.foldl (fun u t => ioSync t u) s

/-- A sync that is not before the last one counts the ticks since then (R244). -/
theorem ioSync_timers_toNat {t1 : Time} (h : s.timerTime.toNat ≤ t1.toNat) :
    (ioSync t1 s).dt.toNat = s.dt.toNat - ticksBetween s.cfg s.timerTime t1 ∧
      (ioSync t1 s).st.toNat = s.st.toNat - ticksBetween s.cfg s.timerTime t1 :=
  ⟨countDown_ticksSince_toNat s.dt h, countDown_ticksSince_toNat s.st h⟩

/-- Syncs in rising order count what the last of them alone would count. -/
theorem syncAll_timers_toNat {times : List Time} {t1 : Time}
    (h : (s.timerTime :: times ++ [t1]).Pairwise fun a b => a.toNat ≤ b.toNat) :
    (syncAll (times ++ [t1]) s).dt.toNat = s.dt.toNat - ticksBetween s.cfg s.timerTime t1 ∧
      (syncAll (times ++ [t1]) s).st.toNat = s.st.toNat - ticksBetween s.cfg s.timerTime t1 := by
  induction times generalizing s with
  | nil => exact ioSync_timers_toNat (List.rel_of_pairwise_cons h (List.mem_singleton_self t1))
  | cons t2 times ih =>
    have hrest : (t2 :: times ++ [t1]).Pairwise fun a b => a.toNat ≤ b.toNat := h.tail
    have hfirst : s.timerTime.toNat ≤ t2.toNat := List.rel_of_pairwise_cons h List.mem_cons_self
    have hlast : t2.toNat ≤ t1.toNat := List.rel_of_pairwise_cons hrest (by simp)
    obtain ⟨hdt, hst⟩ := ioSync_timers_toNat hfirst
    obtain ⟨hdt', hst'⟩ := ih (s := ioSync t2 s) hrest
    rw [hdt, Nat.sub_sub] at hdt'
    rw [hst, Nat.sub_sub] at hst'
    rw [← ticksBetween_add s.cfg hfirst hlast]
    exact ⟨hdt', hst'⟩

/-- Settles O49: the set leaves its own sync as the last one, and the syncs after it count from there. -/
theorem timerCountsTicksSinceSet : Obligations.TimerCountsTicksSinceSet := fun s v _ _ h =>
  syncAll_timers_toNat (s := ioSetDelay v (ioSetSound v (ioSync s.time s))) h

/-! ### Growth -/

/-- A sync never raises a timer, whatever its time. -/
theorem ioSync_timers_le (c : Time) (s : State) :
    (ioSync c s).dt.toNat ≤ s.dt.toNat ∧ (ioSync c s).st.toNat ≤ s.st.toNat :=
  ⟨(countDown_toNat s.dt _).trans_le (Nat.sub_le _ _), (countDown_toNat s.st _).trans_le (Nat.sub_le _ _)⟩

/-- Only `Fx15` and `Fx18` do more to the timers than sync them. -/
theorem exec_timers_le_or_set (h : exec i s = .next t) :
    (t.dt.toNat ≤ s.dt.toNat ∨ ∃ x, i = .ldDtVx x ∧ t.dt = s.reg x) ∧
      (t.st.toNat ≤ s.st.toNat ∨ ∃ x, i = .ldStVx x ∧ t.st = s.reg x) := by
  cases hio : usesIo i with
  | false =>
    obtain ⟨hdt, hst, -⟩ := (frameOf_timers i s t).resolve_right (by simp [hio])
    rw [exec_eq_frameOf h, hdt, hst]
    exact ⟨.inl le_rfl, .inl le_rfl⟩
  | true =>
    obtain ⟨hdt, hst⟩ := ioSync_timers_le s.time s
    cases i
    case ldDtVx x => cases h; exact ⟨.inr ⟨x, rfl, rfl⟩, .inl hst⟩
    case ldStVx x => cases h; exact ⟨.inl hdt, .inr ⟨x, rfl, rfl⟩⟩
    case skp | sknp => cases h; rw [skipIf_eq]; exact ⟨.inl hdt, .inl hst⟩
    case ldVxDt => cases h; exact ⟨.inl hdt, .inl hst⟩
    case ldVxK => cases h; rw [awaitKey_eq]; exact ⟨.inl hdt, .inl hst⟩
    all_goals cases hio

/-- Settles O50: a resumed key wait and an unrecognised word leave the timers, and the word of an instruction that sets
one is the encoding of that instruction. -/
theorem timersGrowOnlyBySet : Obligations.TimersGrowOnlyBySet := by
  intro s t h
  obtain ⟨-, ⟨x, -, rfl⟩ | ⟨-, w, hfetch, ⟨i, u, hdec, hexec, rfl⟩ | ⟨e, -, rfl⟩⟩⟩ := step_next_cases h
  · rw [resumeKeyWait, accrue_eq, awaitKey_eq]
    exact ⟨.inl le_rfl, .inl le_rfl⟩
  · obtain ⟨hdt, hst⟩ := exec_timers_le_or_set hexec
    have hword : fetch s = .ok (encode i) := by rw [hfetch, encode_of_decodeWord hdec]
    rw [accrue_eq]
    refine ⟨hdt.imp_right ?_, hst.imp_right ?_⟩ <;>
      · rintro ⟨x, rfl, hset⟩
        exact ⟨x, hword, hset⟩
  · rw [unrecognisedWord, accrue_eq]
    exact ⟨.inl le_rfl, .inl le_rfl⟩

end Sys2Proof.Machine
end

section
/-! The first instruction after `Reset` and `LoadRom` (R62, R262). -/

namespace Sys2Proof.Machine

variable {s t : State}

/-- A ROM that was loaded fits, and its bytes were written at 0x200. -/
theorem loadRomCommand_eq_done {bytes : List Byte} (hnowait : s.keyWait = none)
    (h : loadRomCommand bytes s = .done t) : bytes.length ≤ 3584 ∧ t = writeRom 0x200 bytes s := by
  rcases Nat.lt_or_ge 3584 bytes.length with hlong | hfit
  · rw [loadRomCommand_too_long hlong] at h
    cases h
  · rw [loadRomCommand_done hnowait hfit] at h
    cases h
    exact ⟨hfit, rfl⟩

/-- The word at the base of a loaded ROM is the one its first two bytes encode. -/
theorem memRead16_writeRom {i : Instr} {rest : List Byte} (hs : MemoryOk s)
    (hfit : (encodeBytes i ++ rest).length ≤ 3584) :
    memRead16 (writeRom 0x200 (encodeBytes i ++ rest) s) 0x0200 = .ok (encode i) := by
  obtain ⟨-, -, hbytes, -⟩ := writeRom_spec (encodeBytes i ++ rest) 0x200 s (by omega) hs
  have hhigh : (writeRom 0x200 (encodeBytes i ++ rest) s).byteAt 0x200 = highByte (encode i) :=
    hbytes 0 (Nat.succ_pos _)
  have hlow : (writeRom 0x200 (encodeBytes i ++ rest) s).byteAt 0x201 = lowByte (encode i) :=
    hbytes 1 (Nat.succ_lt_succ (Nat.succ_pos _))
  calc memRead16 (writeRom 0x200 (encodeBytes i ++ rest) s) 0x0200
    _ = .ok (wordOfBytes ((writeRom 0x200 (encodeBytes i ++ rest) s).byteAt 0x200)
          ((writeRom 0x200 (encodeBytes i ++ rest) s).byteAt 0x201)) := memRead16_fits (fits_two_iff.mpr (by decide))
    _ = .ok (encode i) := by rw [hhigh, hlow, wordOfBytes_bytes]

/-- Settles O51: the load changes memory only, so the engine is ready at 0x200 as reset left it, and the word it fetches
there is the encoding of the ROM's first instruction. -/
theorem firstInstructionIsAtRomBase : Obligations.FirstInstructionIsAtRomBase := by
  intro c i rest s hload
  have hs : MemoryOk (State.resetWith c) := rfl
  obtain ⟨hfit, rfl⟩ := loadRomCommand_eq_done rfl hload
  have hread := memRead16_writeRom hs hfit
  obtain ⟨-, hframe, -, -⟩ := writeRom_spec (encodeBytes i ++ rest) 0x200 (State.resetWith c) (by omega) hs
  rw [hframe] at hread ⊢
  exact ⟨rfl, step_instr ⟨rfl, rfl⟩ hread (decodeWord_encode i)⟩

end Sys2Proof.Machine
end
